-- ==== Sys2Proof/Word.lean ====
section
/-! DEFINITION. The word types of CORE (00_scope.md R6, R8). Everything that computes on them
stands under Sys2Proof/Machine/. -/

namespace Sys2Proof

/-- A data byte, a length byte or a character (10_state.md R24, R29, R30). -/
abbrev Byte := BitVec 8

/-- A 32-bit word: a word of a Register, S, REM, STATUS or a command word (20_memory.md R66). -/
abbrev Word := BitVec 32

/-- A Register value: 256 bits (10_state.md R20). -/
abbrev Reg := BitVec 256

end Sys2Proof
end

