-- ==== Sys2Proof/Syntax.lean ====
section
/-! DEFINITION. The syntax of CORE's commands (30_encoding.md R81 to R83, R88, R90): operand names, opcodes, and
one constructor of `Instr` for each row of spec/opcode_table.json. An operand's class and range are in its type. -/

namespace Sys2Proof

/-- A Register name (10_state.md R20). -/
inductive XReg where
  | x0 | x1 | x2 | x3
  deriving DecidableEq, Repr

/-- An encoded buffer's name (10_state.md R24). -/
inductive EBuf where
  | e0 | e1 | e2 | e3
  deriving DecidableEq, Repr

/-- The class of an index field (30_encoding.md R83): a Register, an encoded buffer, or unused and zero. -/
inductive FieldClass where
  | reg | buf | unused
  deriving DecidableEq, Repr

/-- The assigned opcodes (30_encoding.md R83). -/
inductive Opcode where
  | dec | decw | enc
  | parse | fmt
  | cmp | ceq | cne | clt | cle | cgt | cge | min | max
  | neg | add | sub
  | muls | divs
  deriving DecidableEq, Repr

/-- One row of the opcode map (30_encoding.md R83). -/
structure OpRow where
  op : Opcode
  code : BitVec 8
  d : FieldClass
  a : FieldClass
  b : FieldClass
  pattern : Word
  mask : Word
  deriving DecidableEq, Repr

/-- The commands of CORE, operands in the assembler's order: D, then A, then B (30_encoding.md R83, R90). -/
inductive Instr where
  | dec (d : XReg) (a : EBuf)
  | decw (d : XReg) (a : EBuf)
  | enc (d : EBuf) (a : XReg)
  | parse (d : XReg)
  | fmt (a : XReg)
  | cmp (a b : EBuf)
  | ceq (a b : EBuf)
  | cne (a b : EBuf)
  | clt (a b : EBuf)
  | cle (a b : EBuf)
  | cgt (a b : EBuf)
  | cge (a b : EBuf)
  | min (d a b : EBuf)
  | max (d a b : EBuf)
  | neg (d a : XReg)
  | add (d a b : XReg)
  | sub (d a b : XReg)
  | muls (d a : XReg)
  | divs (d a : XReg)
  deriving DecidableEq, Repr

/-- Why a command word is illegal (30_encoding.md R84, R86, R85). -/
inductive Illegal where
  /-- A bit of RSV [31:14] is set (R84). -/
  | reservedBits
  /-- The opcode is none of the assigned ones (R86). -/
  | unassignedOpcode
  /-- An index field of class `0` is not zero (R85). -/
  | unusedField
  deriving DecidableEq, Repr

/-- A written operand, its index not yet checked (30_encoding.md R90). -/
structure AsmOperand where
  cls : FieldClass
  index : Nat
  deriving DecidableEq, Repr

/-- A line of assembly as its tokens: the mnemonic and the operands between commas (30_encoding.md R90). -/
structure AsmLine where
  mnemonic : List Char
  operands : List (List Char)
  deriving DecidableEq, Repr

/-- The assembly errors (30_encoding.md R90). -/
inductive AsmError where
  /-- The mnemonic names no command. -/
  | unknownMnemonic
  /-- A missing or extra operand. -/
  | operandCount
  /-- A token that is no Register or buffer name. -/
  | notAnOperand
  /-- An operand of the wrong class. -/
  | wrongClass
  /-- An index above 3. -/
  | indexAboveThree
  deriving DecidableEq, Repr

end Sys2Proof
end

