-- ==== Sys2Proof/WellFormed.lean ====
section
/-! DEFINITION. What is ill-formed on CORE. A term of `Instr` cannot be: each operand's class and its range 0..3
are in its type (30_encoding.md R83, R88). A command WORD can be (R84 to R86), and so can a line of assembly (R90):
the checks stand here. -/

namespace Sys2Proof

/-- R84: the reserved bits [31:14] are zero. -/
def rsvIsZero (w : Word) : Bool := w.extractLsb' 14 18 == 0#18

/-- R86, in the negative: the opcode is one of those R83 lists, given as the ranges R86 leaves. -/
def opcodeIsAssigned (w : Word) : Bool :=
  let op := (w.extractLsb' 0 8).toNat
  (1 ≤ op && op ≤ 0x03) || (0x10 ≤ op && op ≤ 0x11) || (0x20 ≤ op && op ≤ 0x28) ||
    (0x30 ≤ op && op ≤ 0x32) || (0x40 ≤ op && op ≤ 0x41)

/-- R85: the field D is zero where the opcode does not use it (FMT, and CMP to CGE). -/
def unusedDIsZero (w : Word) : Bool :=
  let op := (w.extractLsb' 0 8).toNat
  !(op == 0x11 || (0x20 ≤ op && op ≤ 0x26)) || w.extractLsb' 8 2 == 0#2

/-- R85: the field A is zero where the opcode does not use it (PARSE). -/
def unusedAIsZero (w : Word) : Bool :=
  !((w.extractLsb' 0 8).toNat == 0x10) || w.extractLsb' 10 2 == 0#2

/-- R85: the field B is zero where the opcode does not use it (DEC, DECW, ENC, PARSE, FMT, NEG, MULS, DIVS). -/
def unusedBIsZero (w : Word) : Bool :=
  let op := (w.extractLsb' 0 8).toNat
  !(op ≤ 0x11 || op == 0x30 || 0x40 ≤ op) || w.extractLsb' 12 2 == 0#2

/-- A command word is well formed iff it passes every check of R84 to R86. -/
def wordWellFormed (w : Word) : Bool :=
  rsvIsZero w && opcodeIsAssigned w && unusedDIsZero w && unusedAIsZero w && unusedBIsZero w

/-- R90: the operand has the class its place asks for. -/
def operandClassOk (want : FieldClass) (o : AsmOperand) : Bool := o.cls == want

/-- R90: the operand's index is at most 3. -/
def operandIndexOk (o : AsmOperand) : Bool := o.index ≤ 3

/-- R90: no operand is missing and none is extra. -/
def operandCountOk (want : List FieldClass) (os : List AsmOperand) : Bool := os.length == want.length

/-- R90: an operand list is well formed for a command whose places have the classes `want`. -/
def operandsWellFormed (want : List FieldClass) (os : List AsmOperand) : Bool :=
  operandCountOk want os && (want.zip os).all fun p => operandClassOk p.1 p.2 && operandIndexOk p.2

end Sys2Proof
end

