-- ==== Sys2Proof/Decode.lean ====
section
/-! DEFINITION. Decoding and encoding of command words (30_encoding.md R80 to R89). -/

namespace Sys2Proof

/-! ## Fields of the command word (R81) -/

/-- OP, bits [7:0]. -/
def opField (w : Word) : BitVec 8 := w.extractLsb' 0 8

/-- D, bits [9:8]. -/
def dField (w : Word) : BitVec 2 := w.extractLsb' 8 2

/-- A, bits [11:10]. -/
def aField (w : Word) : BitVec 2 := w.extractLsb' 10 2

/-- B, bits [13:12]. -/
def bField (w : Word) : BitVec 2 := w.extractLsb' 12 2

/-- RSV, bits [31:14]. -/
def rsvField (w : Word) : BitVec 18 := w.extractLsb' 14 18

/-! ## The opcode map (R83) -/

/-- The rows of R83, in its order, with the classes, match and mask it gives. -/
def opcodeMap : List OpRow := [
  ⟨.dec,   0x01, .reg,    .buf,    .unused, 0x00000001, 0xFFFFF0FF⟩,
  ⟨.decw,  0x02, .reg,    .buf,    .unused, 0x00000002, 0xFFFFF0FF⟩,
  ⟨.enc,   0x03, .buf,    .reg,    .unused, 0x00000003, 0xFFFFF0FF⟩,
  ⟨.parse, 0x10, .reg,    .unused, .unused, 0x00000010, 0xFFFFFCFF⟩,
  ⟨.fmt,   0x11, .unused, .reg,    .unused, 0x00000011, 0xFFFFF3FF⟩,
  ⟨.cmp,   0x20, .unused, .buf,    .buf,    0x00000020, 0xFFFFC3FF⟩,
  ⟨.ceq,   0x21, .unused, .buf,    .buf,    0x00000021, 0xFFFFC3FF⟩,
  ⟨.cne,   0x22, .unused, .buf,    .buf,    0x00000022, 0xFFFFC3FF⟩,
  ⟨.clt,   0x23, .unused, .buf,    .buf,    0x00000023, 0xFFFFC3FF⟩,
  ⟨.cle,   0x24, .unused, .buf,    .buf,    0x00000024, 0xFFFFC3FF⟩,
  ⟨.cgt,   0x25, .unused, .buf,    .buf,    0x00000025, 0xFFFFC3FF⟩,
  ⟨.cge,   0x26, .unused, .buf,    .buf,    0x00000026, 0xFFFFC3FF⟩,
  ⟨.min,   0x27, .buf,    .buf,    .buf,    0x00000027, 0xFFFFC0FF⟩,
  ⟨.max,   0x28, .buf,    .buf,    .buf,    0x00000028, 0xFFFFC0FF⟩,
  ⟨.neg,   0x30, .reg,    .reg,    .unused, 0x00000030, 0xFFFFF0FF⟩,
  ⟨.add,   0x31, .reg,    .reg,    .reg,    0x00000031, 0xFFFFC0FF⟩,
  ⟨.sub,   0x32, .reg,    .reg,    .reg,    0x00000032, 0xFFFFC0FF⟩,
  ⟨.muls,  0x40, .reg,    .reg,    .unused, 0x00000040, 0xFFFFF0FF⟩,
  ⟨.divs,  0x41, .reg,    .reg,    .unused, 0x00000041, 0xFFFFF0FF⟩]

/-- The row of R83 with this opcode value, if there is one. -/
def rowOf (code : BitVec 8) : Option OpRow := opcodeMap.find? fun r => r.code == code

/-- R87's second description of legality: the word agrees with the row at every bit the mask names. -/
def OpRow.matchesWord (r : OpRow) (w : Word) : Bool := (w &&& r.mask) == r.pattern

/-! ## Indices (R82, R88) -/

/-- The Register an index field names. -/
def XReg.ofIndex (i : BitVec 2) : XReg :=
  match i.toNat with
  | 0 => .x0
  | 1 => .x1
  | 2 => .x2
  | _ => .x3

/-- The index of a Register. -/
def XReg.index : XReg → BitVec 2
  | .x0 => 0 | .x1 => 1 | .x2 => 2 | .x3 => 3

/-- The encoded buffer an index field names. -/
def EBuf.ofIndex (i : BitVec 2) : EBuf :=
  match i.toNat with
  | 0 => .e0
  | 1 => .e1
  | 2 => .e2
  | _ => .e3

/-- The index of an encoded buffer. -/
def EBuf.index : EBuf → BitVec 2
  | .e0 => 0 | .e1 => 1 | .e2 => 2 | .e3 => 3

/-! ## Decoding (R87) -/

/-- The command with this opcode and these index fields; a field of class `0` is not used. -/
def Opcode.build (op : Opcode) (d a b : BitVec 2) : Instr :=
  match op with
  | .dec => .dec (.ofIndex d) (.ofIndex a)
  | .decw => .decw (.ofIndex d) (.ofIndex a)
  | .enc => .enc (.ofIndex d) (.ofIndex a)
  | .parse => .parse (.ofIndex d)
  | .fmt => .fmt (.ofIndex a)
  | .cmp => .cmp (.ofIndex a) (.ofIndex b)
  | .ceq => .ceq (.ofIndex a) (.ofIndex b)
  | .cne => .cne (.ofIndex a) (.ofIndex b)
  | .clt => .clt (.ofIndex a) (.ofIndex b)
  | .cle => .cle (.ofIndex a) (.ofIndex b)
  | .cgt => .cgt (.ofIndex a) (.ofIndex b)
  | .cge => .cge (.ofIndex a) (.ofIndex b)
  | .min => .min (.ofIndex d) (.ofIndex a) (.ofIndex b)
  | .max => .max (.ofIndex d) (.ofIndex a) (.ofIndex b)
  | .neg => .neg (.ofIndex d) (.ofIndex a)
  | .add => .add (.ofIndex d) (.ofIndex a) (.ofIndex b)
  | .sub => .sub (.ofIndex d) (.ofIndex a) (.ofIndex b)
  | .muls => .muls (.ofIndex d) (.ofIndex a)
  | .divs => .divs (.ofIndex d) (.ofIndex a)

/-- R85 for one field: of class `0`, it must be zero. -/
def fieldOk (c : FieldClass) (f : BitVec 2) : Bool := c != .unused || f == 0

/-- DecodeCmd (R87), in its order of checks. Total on all 2^32 words; an illegal word is rejected by name. -/
def decode (w : Word) : Except Illegal Instr :=
  if rsvField w != 0 then .error .reservedBits
  else
    match rowOf (opField w) with
    | none => .error .unassignedOpcode
    | some r =>
      if fieldOk r.d (dField w) && fieldOk r.a (aField w) && fieldOk r.b (bField w) then
        .ok (r.op.build (dField w) (aField w) (bField w))
      else .error .unusedField

/-! ## Encoding (R81) -/

/-- `w = OP | (D << 8) | (A << 10) | (B << 12)` (R81). -/
def commandWord (op : BitVec 8) (d a b : BitVec 2) : Word :=
  op.setWidth 32 ||| (d.setWidth 32 <<< 8) ||| (a.setWidth 32 <<< 10) ||| (b.setWidth 32 <<< 12)

/-- The one command word of a command (R85): opcode from R83, unused fields zero. -/
def encode : Instr → Word
  | .dec d a => commandWord 0x01 d.index a.index 0
  | .decw d a => commandWord 0x02 d.index a.index 0
  | .enc d a => commandWord 0x03 d.index a.index 0
  | .parse d => commandWord 0x10 d.index 0 0
  | .fmt a => commandWord 0x11 0 a.index 0
  | .cmp a b => commandWord 0x20 0 a.index b.index
  | .ceq a b => commandWord 0x21 0 a.index b.index
  | .cne a b => commandWord 0x22 0 a.index b.index
  | .clt a b => commandWord 0x23 0 a.index b.index
  | .cle a b => commandWord 0x24 0 a.index b.index
  | .cgt a b => commandWord 0x25 0 a.index b.index
  | .cge a b => commandWord 0x26 0 a.index b.index
  | .min d a b => commandWord 0x27 d.index a.index b.index
  | .max d a b => commandWord 0x28 d.index a.index b.index
  | .neg d a => commandWord 0x30 d.index a.index 0
  | .add d a b => commandWord 0x31 d.index a.index b.index
  | .sub d a b => commandWord 0x32 d.index a.index b.index
  | .muls d a => commandWord 0x40 d.index a.index 0
  | .divs d a => commandWord 0x41 d.index a.index 0

/-! ## The host's entry -/

/-- A command is one 32-bit word (R80), so a table row's bits are the command word itself. -/
def tableWord (nbits w : Nat) : Word := BitVec.ofNat 32 (w % 2 ^ nbits)

/-- The instruction the decoder reads from a table row's word; none where it rejects. -/
def decodeTableWord (nbits w : Nat) : Option Instr :=
  match decode (tableWord nbits w) with
  | .ok i => some i
  | .error _ => none

end Sys2Proof
end

