-- ==== Sys2Proof/Config.lean ====
section
/-! DEFINITION. The parameters of CORE (00_scope.md R1, R6, R7). The spec fixes all of them, and no
value is left open (93_implementation_defined.md: "`any value` is never used"), so there is no free value here. -/

namespace Sys2Proof.Config

/-- The identifier of the block (R1). -/
def identifier : String := "CORE-VINT256-v7"

/-- `W`, the width of a Register in bits (R6). -/
abbrev regBits : Nat := 256

/-- `NWORDS`, the words of a Register (R6). -/
abbrev regWords : Nat := 8

/-- `WORDW`, the width of a word in bits (R6). -/
abbrev wordBits : Nat := 32

/-- `MAXLEN`, the longest encoding in bytes (R6). -/
abbrev maxLen : Nat := 32

/-- `CHUNK`, the decimal digits of a parse chunk (R6). -/
abbrev chunk : Nat := 9

/-- `GROUP`, the divisor of the formatter (R6). -/
abbrev group : Nat := 1000000000

/-- `NX`, the number of Registers (R7). -/
abbrev numRegs : Nat := 4

/-- `NE`, the number of encoded buffers (R7). -/
abbrev numBufs : Nat := 4

/-- `TIN_MAX`, the size of the text input in bytes (R7). -/
abbrev tinMax : Nat := 255

/-- `TOUT_MAX`, the size of the text output in bytes (R7). -/
abbrev toutMax : Nat := 78

/-- `MAXV`, the most positive value (R6). -/
def maxV : Int := ((2 ^ 255 - 1 : Nat) : Int)

/-- `MINV`, the most negative value (R6). -/
def minV : Int := -((2 ^ 255 : Nat) : Int)

end Sys2Proof.Config
end

