-- ==== Sys2Proof/Machine/State.lean ====
section
/-! DEFINITION. The state of CORE (10_state.md), the events of its port, and the reasons a step can stop. -/

namespace Sys2Proof.Machine

/-! ## The pieces -/

/-- The Registers X0..X3 (R20). -/
structure XRegs where
  x0 : Reg
  x1 : Reg
  x2 : Reg
  x3 : Reg
  deriving DecidableEq, Repr

/-- A length byte and `n` data bytes: E0..E3 with 32 (R24), TIN with 255 (R29), TOUT with 78 (R30). -/
structure Buffer (n : Nat) where
  len : Byte
  data : Vector Byte n
  deriving DecidableEq, Repr

/-- The encoded buffers E0..E3 (R24). -/
structure EBufs where
  e0 : Buffer Config.maxLen
  e1 : Buffer Config.maxLen
  e2 : Buffer Config.maxLen
  e3 : Buffer Config.maxLen
  deriving DecidableEq, Repr

/-- The fields of STATUS that are storage (R31). Bits [31:7] are hard-wired 0, so nothing holds them. -/
structure Status where
  /-- ERR, bits [2:0] (R32). -/
  err : BitVec 3
  /-- V, bit [3] (R33). -/
  v : Bool
  /-- CR, bits [5:4] (R34). -/
  cr : BitVec 2
  /-- T, bit [6] (R35). -/
  t : Bool
  deriving DecidableEq, Repr

/-- The error kinds (60_exceptions.md R211, codes 1 to 6). -/
inductive Err where
  /-- Malformed decimal text. -/
  | invalidSyntax
  /-- An encoding exceeds 32 bytes. -/
  | tooLong
  /-- A disallowed trailing byte. -/
  | malformedEncoding
  /-- Scalar division by zero. -/
  | divisionByZero
  /-- A result outside the representable range. -/
  | overflow
  /-- The command word is not a legal command. -/
  | illegalCommand
  deriving DecidableEq, Repr

/-! ## The port -/

/-- The host's transactions (R40), and its writes to read-only state, which change nothing (R41, I14; log 4). An index
is what the host asks for, in range or not: "A model refuses it and gives it no effect" (R40). -/
inductive Txn where
  /-- Write word `j` of `X[i]`. -/
  | wx (i j : Nat) (w : Word)
  /-- Read word `j` of `X[i]`. -/
  | rx (i j : Nat)
  /-- Write `E[i].LEN`. -/
  | wel (i : Nat) (v : Byte)
  /-- Read `E[i].LEN`. -/
  | rel (i : Nat)
  /-- Write `E[i].DATA[k]`. -/
  | web (i k : Nat) (v : Byte)
  /-- Read `E[i].DATA[k]`. -/
  | reb (i k : Nat)
  /-- Write S. -/
  | ws (w : Word)
  /-- Read S. -/
  | rs
  /-- Read REM. -/
  | rrem
  /-- Write TIN.LEN. -/
  | wtl (v : Byte)
  /-- Read TIN.LEN. -/
  | rtl
  /-- Write `TIN.DATA[k]`. -/
  | wtb (k : Nat) (v : Byte)
  /-- Read `TIN.DATA[k]`. -/
  | rtb (k : Nat)
  /-- Read TOUT.LEN. -/
  | rol
  /-- Read `TOUT.DATA[k]`. -/
  | rob (k : Nat)
  /-- Read STATUS. -/
  | rst
  /-- Run the command with word `w`. -/
  | wcmd (w : Word)
  /-- A write to REM, which is read-only (R28). -/
  | wrem (w : Word)
  /-- A write to TOUT.LEN, which is read-only (R30). -/
  | wol (v : Byte)
  /-- A write to `TOUT.DATA[k]`, which is read-only (R30). -/
  | wob (k : Nat) (v : Byte)
  /-- A write to STATUS, which is read-only (R31). -/
  | wst (w : Word)
  deriving DecidableEq, Repr

/-- What can reach the port: a transaction of the host, or a reset by the platform (70_reset_and_hazards.md R240), between
two transactions or during one, which it aborts. -/
inductive Event where
  | txn (t : Txn)
  | reset
  | resetDuring (t : Txn)
  deriving DecidableEq, Repr

/-- What a read transaction returns (20_memory.md R66): 32 bits for a word, 8 bits for a length or a data byte. -/
inductive Reply where
  | word (w : Word)
  | byte (b : Byte)
  deriving DecidableEq, Repr

/-! ## The state -/

/-- The state of CORE: every piece 10_state.md gives it, and the model's own `port` and `resp`. -/
structure State where
  /-- X0..X3 (R20). -/
  x : XRegs
  /-- E0..E3 (R24). -/
  e : EBufs
  /-- S (R27). -/
  scalar : Word
  /-- REM (R28). -/
  rem : Word
  /-- TIN (R29). -/
  tin : Buffer Config.tinMax
  /-- TOUT (R30). -/
  tout : Buffer Config.toutMax
  /-- STATUS (R31). -/
  status : Status
  /-- The model's own: the events still to happen, in issue order (20_memory.md R71; log 1). -/
  port : List Event
  /-- The model's own: what the last event returned to the host (log 2). -/
  resp : Option Reply
  deriving DecidableEq, Repr

/-! ## Reasons to stop -/

/-- CORE has no fault: an error is a next state with its code in STATUS (60_exceptions.md R210, R214, R217), so no
constructor is needed and nothing raises one (log 11). -/
inductive Fault where
  deriving DecidableEq, Repr

/-- Why a step is refused. -/
inductive Refusal where
  /-- Raised by an arm of `exec` whose instruction has no meaning yet; no arm raises it here. Safe: the run stops. -/
  | notModelled (mnemonic : String)
  /-- Raised by a host transaction with an index out of its range: "A transaction with an index out of its range does
  not exist in the interface. A model refuses it and gives it no effect." (R40, I13). Safe: the run stops (log 3). -/
  | noSuchTransaction
  deriving DecidableEq, Repr

/-! ## Reset (R42, 70_reset_and_hazards.md R240) -/

/-- A buffer at reset: LEN 0 and every data byte 0x00. -/
def Buffer.reset (n : Nat) : Buffer n := ⟨0, Vector.replicate n 0⟩

/-- The machine right after reset: every field at the value R42 gives; the port empty and no reply (log 1, log 2). -/
def State.reset : State where
  x := ⟨0, 0, 0, 0⟩
  e := ⟨.reset _, .reset _, .reset _, .reset _⟩
  scalar := 0
  rem := 0
  tin := .reset _
  tout := .reset _
  status := ⟨0, false, 0, false⟩
  port := []
  resp := none

end Sys2Proof.Machine
end

