-- ==== Sys2Proof/Machine/Bits.lean ====
section
/-! DEFINITION. Words, bytes and values of a Register (00_scope.md R8, R9; 20_memory.md R61), and lists of bytes
as the data of a buffer. -/

namespace Sys2Proof.Machine

/-! ## Words and bytes of a Register (R8) -/

/-- Word `j` of a Register value, bits `[32j+31:32j]`. -/
def word (x : Reg) (j : Nat) : Word := x.extractLsb' (32 * j) 32

/-- Byte `k` of a Register value, bits `[8k+7:8k]`. -/
def byte (x : Reg) (k : Nat) : Byte := x.extractLsb' (8 * k) 8

/-- The eight words of a Register value, word 0 first. -/
def words (x : Reg) : List Word := (List.range Config.regWords).map (word x)

/-- `bytes(x, n)`: the `n` low bytes, byte 0 first (R10). -/
def bytes (x : Reg) (n : Nat) : List Byte := (List.range n).map (byte x)

/-- The number that words, least significant first, stand for. -/
def wordsToNat : List Word → Nat
  | [] => 0
  | w :: ws => w.toNat + 2 ^ 32 * wordsToNat ws

/-- The number that bytes, least significant first, stand for (20_memory.md R60). -/
def bytesToNat : List Byte → Nat
  | [] => 0
  | b :: bs => b.toNat + 2 ^ 8 * bytesToNat bs

/-- The Register value `{w7, ..., w0}` of a list of words, word 0 first. -/
def ofWords (ws : List Word) : Reg := BitVec.ofNat 256 (wordsToNat ws)

/-- The Register value `{c31, ..., c0}` of a list of bytes, byte 0 first. -/
def ofBytes (bs : List Byte) : Reg := BitVec.ofNat 256 (bytesToNat bs)

/-- The top bit of the last byte, which holds an encoding's sign (20_memory.md R60); false for the empty list. -/
def lastTopBit (b : List Byte) : Bool := (b.getLast?.map BitVec.msb).getD false

/-! ## Values (R9) -/

/-- `sign(x)`: the top bit of word 7; true means negative. -/
def sign (x : Reg) : Bool := x.msb

/-- `val(x) = sint_256(x)`. -/
def val (x : Reg) : Int := x.toInt

/-- `enc256(n) = n mod 2^256`. -/
def enc256 (n : Int) : Reg := BitVec.ofInt 256 n

/-- The representable range `[-2^255, 2^255 - 1]` (R6). -/
abbrev InRange (n : Int) : Prop := Config.minV ≤ n ∧ n ≤ Config.maxV

/-- `Mag(x)` (44_scalar.md R190): the unsigned magnitude, unchecked, so that of -2^255 is 2^255. -/
def mag (x : Reg) : Nat := if sign x then (2 ^ 256 - x.toNat) % 2 ^ 256 else x.toNat

/-! ## Buffer data -/

/-- `n` data bytes: those of the list, then 0x00 (D25). -/
def fill (n : Nat) (bs : List Byte) : Vector Byte n :=
  Vector.mk ((List.range n).map fun k => bs.getD k 0).toArray (by simp)

/-- A buffer written whole: LEN the list's length, DATA the list and then 0x00 (10_state.md R26, R30). -/
def Buffer.ofBytes (n : Nat) (bs : List Byte) : Buffer n := ⟨BitVec.ofNat 8 bs.length, fill n bs⟩

/-- The bytes within the length: `DATA[0..LEN-1]` (10_state.md R25, R29). -/
def Buffer.contents {n : Nat} (b : Buffer n) : List Byte := b.data.toList.take b.len.toNat

end Sys2Proof.Machine
end

