-- ==== Sys2Proof/Machine/Flags.lean ====
section
/-! DEFINITION. STATUS and every flag computation of the spec (10_state.md R31 to R35; 42_compare.md; 43_arith.md R170
to R173; 44_scalar.md R191; 60_exceptions.md R211). -/

namespace Sys2Proof.Machine

/-- The code of an error (R211). -/
def Err.code : Err → BitVec 3
  | .invalidSyntax => 1
  | .tooLong => 2
  | .malformedEncoding => 3
  | .divisionByZero => 4
  | .overflow => 5
  | .illegalCommand => 6

/-- V after an error: `V = 1` iff the error is Overflow (R33, R214). -/
def Err.vFlag : Err → Bool
  | .overflow => true
  | _ => false

/-- `CR(c)`, the sign of `a - b` in two bits (R34): LT 0b11, EQ 0b00, GT 0b01. -/
def crOf : Ordering → BitVec 2
  | .lt => 0b11
  | .eq => 0b00
  | .gt => 0b01

/-- The 32 bits the host reads: ERR, V, CR, T, and 0 in the reserved bits [31:7] (R31). -/
def Status.word (st : Status) : Word :=
  st.err.setWidth 32 ||| ((BitVec.ofBool st.v).setWidth 32 <<< 3) ||| (st.cr.setWidth 32 <<< 4) |||
    ((BitVec.ofBool st.t).setWidth 32 <<< 6)

/-! ## The predicates of a comparison result (42_compare.md R143 to R148) -/

/-- T of CEQ. -/
def tEq (c : Ordering) : Bool := c == .eq

/-- T of CNE. -/
def tNe (c : Ordering) : Bool := c != .eq

/-- T of CLT. -/
def tLt (c : Ordering) : Bool := c == .lt

/-- T of CLE. -/
def tLe (c : Ordering) : Bool := c != .gt

/-- T of CGT. -/
def tGt (c : Ordering) : Bool := c == .gt

/-- T of CGE. -/
def tGe (c : Ordering) : Bool := c != .lt

/-! ## Overflow -/

/-- NEG: the input is the single most-negative value (R171). -/
def negOverflows (x : Reg) : Bool := x == BitVec.intMin 256

/-- ADD: the operands share a sign and the result's differs from it (R172). -/
def addOverflows (x y r : Reg) : Bool := sign x == sign y && sign r != sign x

/-- SUB: the operands' signs differ and the result's differs from the minuend's (R173). -/
def subOverflows (x y r : Reg) : Bool := sign x != sign y && sign r != sign x

/-- MULS: the magnitude of the product leaves the range on the side of the Register's sign (R191; C1). -/
def mulOverflows (negative : Bool) (p : Nat) : Bool :=
  if negative then 2 ^ 255 < p else 2 ^ 255 - 1 < p

end Sys2Proof.Machine
end

