-- ==== Sys2Proof/Machine/Ops.lean ====
section
/-! DEFINITION. The named operations over CORE's state: the Registers, the buffers, and the two ends of a command, the
success and the error (60_exceptions.md R214, R215). CORE has no trap entry and no return from one (R217, R218): an
error is `State.fail`. -/

namespace Sys2Proof.Machine

/-! ## Registers (10_state.md R20) -/

/-- `X[i]`. -/
def XRegs.get (x : XRegs) : XReg → Reg
  | .x0 => x.x0
  | .x1 => x.x1
  | .x2 => x.x2
  | .x3 => x.x3

/-- `X[i] <- v`. -/
def XRegs.set (x : XRegs) (i : XReg) (v : Reg) : XRegs :=
  match i with
  | .x0 => { x with x0 := v }
  | .x1 => { x with x1 := v }
  | .x2 => { x with x2 := v }
  | .x3 => { x with x3 := v }

/-- Read a Register. -/
def State.getX (s : State) (i : XReg) : Reg := s.x.get i

/-- Write a Register. -/
def State.setX (s : State) (i : XReg) (v : Reg) : State := { s with x := s.x.set i v }

/-! ## Encoded buffers (10_state.md R24) -/

/-- `E[i]`. -/
def EBufs.get (e : EBufs) : EBuf → Buffer Config.maxLen
  | .e0 => e.e0
  | .e1 => e.e1
  | .e2 => e.e2
  | .e3 => e.e3

/-- `E[i] <- b`. -/
def EBufs.set (e : EBufs) (i : EBuf) (b : Buffer Config.maxLen) : EBufs :=
  match i with
  | .e0 => { e with e0 := b }
  | .e1 => { e with e1 := b }
  | .e2 => { e with e2 := b }
  | .e3 => { e with e3 := b }

/-- Read an encoded buffer's LEN and DATA. -/
def State.getE (s : State) (i : EBuf) : Buffer Config.maxLen := s.e.get i

/-- Write an encoded buffer's LEN and DATA. -/
def State.setE (s : State) (i : EBuf) (b : Buffer Config.maxLen) : State := { s with e := s.e.set i b }

/-- Write a byte list to `E[i]`: LEN its length, DATA the bytes and then 0x00 (R26, D25). -/
def State.writeBuf (s : State) (i : EBuf) (bs : List Byte) : State := s.setE i (.ofBytes _ bs)

/-! ## The other results of commands -/

/-- `REM <- r` (44_scalar.md R192). -/
def State.setRem (s : State) (r : Word) : State := { s with rem := r }

/-- Write a text to TOUT: LEN its length, DATA the text and then 0x00 (41_text.md R127). -/
def State.writeTout (s : State) (text : List Byte) : State := { s with tout := .ofBytes _ text }

/-- `STATUS.CR <- CR(c)` (42_compare.md R142). -/
def State.setCR (s : State) (c : Ordering) : State := { s with status := { s.status with cr := crOf c } }

/-- `STATUS.T <- b` (42_compare.md R143). -/
def State.setT (s : State) (b : Bool) : State := { s with status := { s.status with t := b } }

/-! ## The end of a command -/

/-- R214, taking an error: ERR gets its code, V says whether it is Overflow, and nothing else changes. -/
def State.fail (s : State) (e : Err) : State :=
  { s with status := { s.status with err := e.code, v := e.vFlag } }

/-- R215, the success: ERR and V are 0; CR and T stay as the command's rule wrote or left them. -/
def State.succeed (s : State) : State := { s with status := { s.status with err := 0, v := false } }

/-- The outcome of a command on `s` (30_encoding.md R95): with an error, the error is taken on the state BEFORE the
command, so that nothing it would have written stays; else the destinations are written and the success is recorded. -/
def commit (s : State) : Except Err State → Host.Outcome State Fault Refusal
  | .error e => .next (s.fail e)
  | .ok t => .next t.succeed

end Sys2Proof.Machine
end

