-- ==== Sys2Proof/Machine/Arith.lean ====
section
/-! DEFINITION. Negate, add and subtract: NEG, ADD, SUB (43_arith.md), word by word with the carry or borrow rippling
from word 0 to word 7; the last one is discarded (R170). -/

namespace Sys2Proof.Machine

/-! ## The word loops -/

/-- Complement plus carry, word by word (R171). -/
def negWords : List Word → (carry : Nat) → List Word
  | [], _ => []
  | w :: ws, carry =>
    let t := (~~~w).toNat + carry
    BitVec.ofNat 32 (t % 2 ^ 32) :: negWords ws (t / 2 ^ 32)

/-- Sum with carry, word by word (R172). -/
def addWords : List Word → List Word → (carry : Nat) → List Word
  | x :: xs, y :: ys, carry =>
    let t := x.toNat + y.toNat + carry
    BitVec.ofNat 32 (t % 2 ^ 32) :: addWords xs ys (t / 2 ^ 32)
  | _, _, _ => []

/-- Difference with borrow, word by word (R173). -/
def subWords : List Word → List Word → (borrow : Nat) → List Word
  | x :: xs, y :: ys, borrow =>
    let t : Int := x.toNat - y.toNat - borrow
    BitVec.ofInt 32 t :: subWords xs ys (if t < 0 then 1 else 0)
  | _, _, _ => []

/-- The raw negation of a Register value. -/
def rawNeg (x : Reg) : Reg := ofWords (negWords (words x) 1)

/-- The raw sum of two Register values. -/
def rawAdd (x y : Reg) : Reg := ofWords (addWords (words x) (words y) 0)

/-- The raw difference of two Register values. -/
def rawSub (x y : Reg) : Reg := ofWords (subWords (words x) (words y) 0)

/-! ## Commands -/

/-- NEG (R171). -/
def execNeg (d a : XReg) (s : State) : Host.Outcome State Fault Refusal :=
  commit s <|
    if negOverflows (s.getX a) then .error .overflow else .ok (s.setX d (rawNeg (s.getX a)))

/-- ADD (R172). -/
def execAdd (d a b : XReg) (s : State) : Host.Outcome State Fault Refusal :=
  let r := rawAdd (s.getX a) (s.getX b)
  commit s <| if addOverflows (s.getX a) (s.getX b) r then .error .overflow else .ok (s.setX d r)

/-- SUB (R173). -/
def execSub (d a b : XReg) (s : State) : Host.Outcome State Fault Refusal :=
  let r := rawSub (s.getX a) (s.getX b)
  commit s <| if subOverflows (s.getX a) (s.getX b) r then .error .overflow else .ok (s.setX d r)

end Sys2Proof.Machine
end

