-- ==== Sys2Proof/Machine/Operands.lean ====
section
/-! DEFINITION. How a command reads its operands (30_encoding.md R82, R88, R95): Registers (`State.getX`), encoded buffers
through `ReadEnc`, and the implicit operands S (`State.scalar`) and TIN. -/

namespace Sys2Proof.Machine

/-- `ReadEnc(i)` (40_codec.md R100): TooLong when LEN exceeds 32, whatever DATA holds. -/
def readEnc (s : State) (i : EBuf) : Except Err (List Byte) :=
  if (s.getE i).len.toNat > Config.maxLen then .error .tooLong else .ok (s.getE i).contents

/-- Both buffers of a comparator command, A first (42_compare.md R142; 60_exceptions.md R216). -/
def readPair (s : State) (a b : EBuf) : Except Err (List Byte × List Byte) :=
  match readEnc s a with
  | .error e => .error e
  | .ok x =>
    match readEnc s b with
    | .error e => .error e
    | .ok y => .ok (x, y)

/-- The text PARSE reads, `TIN.DATA[0..TIN.LEN-1]` (41_text.md R120). -/
def State.tinText (s : State) : List Byte := s.tin.contents

end Sys2Proof.Machine
end

