-- ==== Sys2Proof/Machine/Codec.lean ====
section
/-! DEFINITION. The encoder and decoder: DEC, DECW, ENC (40_codec.md). -/

namespace Sys2Proof.Machine

/-! ## Functions -/

/-- `DecodeBytes(b)` (R103): the 256-bit sign extension, byte `k` at bits `[8k+7:8k]` (20_memory.md R61). -/
def decodeBytes (b : List Byte) : Reg :=
  let pad : Byte := if lastTopBit b then 0xFF else 0x00
  ofBytes ((List.range Config.maxLen).map fun k => b.getD k pad)

/-- `MinLen(x)` (R101): the least `n` in 0..32 whose low bytes decode to `x`. -/
def minLen (x : Reg) : Nat :=
  ((List.range (Config.maxLen + 1)).find? fun n => decodeBytes (bytes x n) == x).getD Config.maxLen

/-- The highest byte index below `n` at which the byte of `x` is not `c`. -/
def highestOther (x : Reg) (c : Byte) : Nat → Option Nat
  | 0 => none
  | n + 1 => if byte x n != c then some n else highestOther x c n

/-- `MinLenScan(x)` (R102), the scan a hardware encoder may use. -/
def minLenScan (x : Reg) : Nat :=
  if sign x then
    match highestOther x 0xFF Config.maxLen with
    | none => 1
    | some k => if (byte x k).msb then k + 1 else k + 2
  else
    match highestOther x 0x00 Config.maxLen with
    | none => 0
    | some k => if (byte x k).msb then k + 2 else k + 1

/-- The minimal encoding of `x`: `bytes(x, MinLen(x))` (R104). -/
def minimalEncoding (x : Reg) : List Byte := bytes x (minLen x)

/-- `Minimal(b)` (R109). -/
def minimal (b : List Byte) : Bool := b.length ≤ Config.maxLen && b.length == minLen (decodeBytes b)

/-- `WireCheck(b)` (R105) passes: no trailing 0x00 that sign extension does not require. -/
def wireCheckPasses (b : List Byte) : Bool :=
  match b.reverse with
  | [] => true
  | last :: rest => last != 0x00 || (rest.head?.map BitVec.msb).getD false

/-- `WriteEnc(i, x)` (R104). -/
def State.writeEnc (s : State) (i : EBuf) (x : Reg) : State := s.writeBuf i (minimalEncoding x)

/-! ## Commands -/

/-- DEC (R106). -/
def execDec (d : XReg) (a : EBuf) (s : State) : Host.Outcome State Fault Refusal :=
  commit s <|
    match readEnc s a with
    | .error e => .error e
    | .ok b => .ok (s.setX d (decodeBytes b))

/-- DECW (R107). -/
def execDecw (d : XReg) (a : EBuf) (s : State) : Host.Outcome State Fault Refusal :=
  commit s <|
    match readEnc s a with
    | .error e => .error e
    | .ok b => if wireCheckPasses b then .ok (s.setX d (decodeBytes b)) else .error .malformedEncoding

/-- ENC (R108). -/
def execEnc (d : EBuf) (a : XReg) (s : State) : Host.Outcome State Fault Refusal :=
  commit s (.ok (s.writeEnc d (s.getX a)))

end Sys2Proof.Machine
end

