-- ==== Sys2Proof/Machine/Compare.lean ====
section
/-! DEFINITION. The comparator: CMP, CEQ, CNE, CLT, CLE, CGT, CGE, MIN, MAX (42_compare.md). -/

namespace Sys2Proof.Machine

/-! ## The comparison function -/

/-- Unsigned order of two bytes. -/
def cmpByte (a b : Byte) : Ordering :=
  if a.toNat > b.toNat then .gt else if a.toNat < b.toNat then .lt else .eq

/-- Unsigned comparison of byte lists of one length, most significant byte first. -/
def cmpUnsigned : List Byte → List Byte → Ordering
  | a :: as, b :: bs =>
    match cmpByte a b with
    | .eq => cmpUnsigned as bs
    | c => c
  | _, _ => .eq

/-- `CmpEnc` on lists of one length, most significant byte first: the top bytes with their sign bits flipped, then the
rest unsigned (R140). -/
def cmpSameLength : List Byte → List Byte → Ordering
  | ta :: as, tb :: bs =>
    match cmpByte (ta ^^^ 0x80) (tb ^^^ 0x80) with
    | .eq => cmpUnsigned as bs
    | c => c
  | _, _ => .eq

/-- `CmpEnc(a, b)` (R140): of lists of different lengths, the longer one's own sign decides. -/
def cmpEnc (a b : List Byte) : Ordering :=
  if a.length > b.length then (if lastTopBit a then .lt else .gt)
  else if a.length < b.length then (if lastTopBit b then .gt else .lt)
  else cmpSameLength a.reverse b.reverse

/-! ## The shared template -/

/-- A predicate command: CR gets the comparison result and T its truth value (R143). -/
def comparePredicate (truth : Ordering → Bool) (a b : EBuf) (s : State) : Host.Outcome State Fault Refusal :=
  commit s <|
    match readPair s a b with
    | .error e => .error e
    | .ok (x, y) => .ok ((s.setCR (cmpEnc x y)).setT (truth (cmpEnc x y)))

/-- MIN and MAX: copy B's bytes when the comparison gives `pickB`, else A's; CR gets the result (R149, R150). -/
def compareSelect (pickB : Ordering) (d a b : EBuf) (s : State) : Host.Outcome State Fault Refusal :=
  commit s <|
    match readPair s a b with
    | .error e => .error e
    | .ok (x, y) => .ok ((s.writeBuf d (if cmpEnc x y = pickB then y else x)).setCR (cmpEnc x y))

/-! ## Commands -/

/-- CMP (R142). -/
def execCmp (a b : EBuf) (s : State) : Host.Outcome State Fault Refusal :=
  commit s <|
    match readPair s a b with
    | .error e => .error e
    | .ok (x, y) => .ok (s.setCR (cmpEnc x y))

/-- CEQ (R143). -/
def execCeq (a b : EBuf) (s : State) : Host.Outcome State Fault Refusal := comparePredicate tEq a b s

/-- CNE (R144). -/
def execCne (a b : EBuf) (s : State) : Host.Outcome State Fault Refusal := comparePredicate tNe a b s

/-- CLT (R145). -/
def execClt (a b : EBuf) (s : State) : Host.Outcome State Fault Refusal := comparePredicate tLt a b s

/-- CLE (R146). -/
def execCle (a b : EBuf) (s : State) : Host.Outcome State Fault Refusal := comparePredicate tLe a b s

/-- CGT (R147). -/
def execCgt (a b : EBuf) (s : State) : Host.Outcome State Fault Refusal := comparePredicate tGt a b s

/-- CGE (R148). -/
def execCge (a b : EBuf) (s : State) : Host.Outcome State Fault Refusal := comparePredicate tGe a b s

/-- MIN (R149). -/
def execMin (d a b : EBuf) (s : State) : Host.Outcome State Fault Refusal := compareSelect .gt d a b s

/-- MAX (R150). -/
def execMax (d a b : EBuf) (s : State) : Host.Outcome State Fault Refusal := compareSelect .lt d a b s

end Sys2Proof.Machine
end

