-- ==== Sys2Proof/Machine/Scalar.lean ====
section
/-! DEFINITION. Scalar multiply and divide: MULS, DIVS (44_scalar.md), on the unsigned magnitude (R190; C5), word by word. -/

namespace Sys2Proof.Machine

/-! ## The word loops -/

/-- The words of a magnitude, word 0 first. -/
def magWords (x : Reg) : List Word := words (BitVec.ofNat 256 (mag x))

/-- Multiply by `m`, word by word, with the carry tracked; the second component is the final carry (R191). -/
def mulWords (m : Nat) : List Word → (carry : Nat) → List Word × Nat
  | [], carry => ([], carry)
  | w :: ws, carry =>
    let t := w.toNat * m + carry
    let rest := mulWords m ws (t / 2 ^ 32)
    (BitVec.ofNat 32 (t % 2 ^ 32) :: rest.1, rest.2)

/-- Long division by `m`, most significant word first: the quotient words in that order, and the remainder (R192). -/
def divWords (m : Nat) : List Word → (rem : Nat) → List Word × Nat
  | [], rem => ([], rem)
  | w :: ws, rem =>
    let t := rem * 2 ^ 32 + w.toNat
    let rest := divWords m ws (t % m)
    (BitVec.ofNat 32 (t / m) :: rest.1, rest.2)

/-- `P = carry * 2^256 + uint(p7..p0)`, the exact product of the magnitude and the scalar (R191). -/
def magProduct (x : Reg) (m : Word) : Nat :=
  let p := mulWords m.toNat (magWords x) 0
  p.2 * 2 ^ 256 + wordsToNat p.1

/-- The quotient and the remainder of the magnitude by the scalar (R192). -/
def magDivMod (x : Reg) (m : Word) : Nat × Nat :=
  let r := divWords m.toNat (magWords x).reverse 0
  (wordsToNat r.1.reverse, r.2)

/-- A magnitude put back under the sign of the Register it came from (R191, R192). -/
def withSign (negative : Bool) (p : Nat) : Reg := if negative then enc256 (-(p : Int)) else enc256 p

/-! ## Commands -/

/-- MULS (R191; C1). -/
def execMuls (d a : XReg) (s : State) : Host.Outcome State Fault Refusal :=
  let x := s.getX a
  let p := magProduct x s.scalar
  commit s <| if mulOverflows (sign x) p then .error .overflow else .ok (s.setX d (withSign (sign x) p))

/-- DIVS (R192): the quotient and the remainder are written together, only on success (D48). -/
def execDivs (d a : XReg) (s : State) : Host.Outcome State Fault Refusal :=
  let x := s.getX a
  commit s <|
    if s.scalar = 0 then .error .divisionByZero
    else
      let r := magDivMod x s.scalar
      .ok ((s.setX d (withSign (sign x) r.1)).setRem (BitVec.ofNat 32 r.2))

end Sys2Proof.Machine
end

