-- ==== Sys2Proof/Machine/Text.lean ====
section
/-! DEFINITION. The decimal parser and formatter: PARSE, FMT (41_text.md). Character codes: 00_scope.md R11 (log 6). -/

namespace Sys2Proof.Machine

/-! ## Characters (00_scope.md R11) -/

/-- `'+'`. -/
def charPlus : Byte := 0x2B

/-- `'-'`. -/
def charMinus : Byte := 0x2D

/-- `'0'`. -/
def charZero : Byte := 0x30

/-- `c` is one of `'0'..'9'`. -/
def isDigit (c : Byte) : Bool := 0x30 ≤ c.toNat && c.toNat ≤ 0x39

/-- `digit(c)`. -/
def digit (c : Byte) : Nat := c.toNat - 0x30

/-- The character of a digit. -/
def digitChar (d : Nat) : Byte := BitVec.ofNat 8 (0x30 + d)

/-! ## Parsing -/

/-- The optional sign of a text, and what follows it (R121). -/
def takeSign : List Byte → Bool × List Byte
  | [] => (false, [])
  | c :: rest =>
    if c = charPlus then (false, rest)
    else if c = charMinus then (true, rest)
    else (false, c :: rest)

/-- `SplitSign(t)` (R121): the whole text is checked before any arithmetic (D31). -/
def splitSign (t : List Byte) : Except Err (Bool × List Byte) :=
  let r := takeSign t
  if r.2.isEmpty then .error .invalidSyntax
  else if r.2.all isDigit then .ok r
  else .error .invalidSyntax

/-- The end of a chunk (R123): multiply by the power of ten, then add or subtract the chunk, each checked. -/
def applyChunk (neg : Bool) (r : Int) (acc p : Nat) : Except Err Int :=
  let m := r * p
  if InRange m then
    let q := if neg then m - acc else m + acc
    if InRange q then .ok q else .error .overflow
  else .error .overflow

/-- The digits of `ChunkParse` from left to right (R123): `acc` and `p` are built digit by digit over the `n` digits
of the chunk so far, and every 9 digits, or at the end of the text, the chunk goes into `r`. -/
def parseDigits (neg : Bool) : List Byte → (r : Int) → (acc p n : Nat) → Except Err Int
  | [], r, acc, p, n => if n = 0 then .ok r else applyChunk neg r acc p
  | c :: cs, r, acc, p, n =>
    let acc' := acc * 10 + digit c
    let p' := p * 10
    if n + 1 = Config.chunk then
      match applyChunk neg r acc' p' with
      | .error e => .error e
      | .ok r' => parseDigits neg cs r' 0 1 0
    else parseDigits neg cs r acc' p' (n + 1)

/-- `ChunkParse(neg, d)` (R123). -/
def chunkParse (neg : Bool) (ds : List Byte) : Except Err Reg :=
  match parseDigits neg ds 0 0 1 0 with
  | .error e => .error e
  | .ok r => .ok (enc256 r)

/-- PARSE on a text (R124). -/
def parseText (t : List Byte) : Except Err Reg :=
  match splitSign t with
  | .error e => .error e
  | .ok (neg, ds) => chunkParse neg ds

/-- PARSE (R124). -/
def execParse (d : XReg) (s : State) : Host.Outcome State Fault Refusal :=
  commit s <|
    match parseText s.tinText with
    | .error e => .error e
    | .ok x => .ok (s.setX d x)

/-! ## Formatting -/

/-- The last `w` decimal digits of `n`, most significant first, padded with zeros (R126). -/
def paddedDigits : (w : Nat) → Nat → List Byte
  | 0, _ => []
  | w + 1, n => paddedDigits w (n / 10) ++ [digitChar (n % 10)]

/-- The 9-digit groups of `m`, least significant first (R126); the first argument bounds their number. -/
def decimalGroups : (most : Nat) → Nat → List Nat
  | 0, _ => []
  | k + 1, m => (m % Config.group) :: if m / Config.group = 0 then [] else decimalGroups k (m / Config.group)

/-- The text of groups, most significant first: the first without leading zeros, the others with 9 digits (R126). -/
def groupsText : List Nat → List Byte
  | [] => []
  | g :: gs => (paddedDigits Config.chunk g).dropWhile (· == charZero) ++ gs.flatMap (paddedDigits Config.chunk)

/-- `FormatGroups(x)` (R126). Nine groups are enough: a magnitude is at most 2^255 < 10^81 (log 13). -/
def formatGroups (x : Reg) : List Byte :=
  if val x = 0 then [charZero]
  else
    let text := groupsText (decimalGroups 9 (mag x)).reverse
    if val x < 0 then charMinus :: text else text

/-- FMT (R127). -/
def execFmt (a : XReg) (s : State) : Host.Outcome State Fault Refusal :=
  commit s (.ok (s.writeTout (formatGroups (s.getX a))))

end Sys2Proof.Machine
end

