-- ==== Sys2Proof/Machine/Dispatch.lean ====
section
/-! DEFINITION. One arm per command of spec/opcode_table.json. -/

namespace Sys2Proof.Machine

def exec (i : Instr) (s : State) : Host.Outcome State Fault Refusal :=
  match i with
  | .dec d a => Sys2Proof.Machine.execDec d a s
  | .decw d a => Sys2Proof.Machine.execDecw d a s
  | .enc d a => Sys2Proof.Machine.execEnc d a s
  | .parse d => Sys2Proof.Machine.execParse d s
  | .fmt a => Sys2Proof.Machine.execFmt a s
  | .cmp a b => Sys2Proof.Machine.execCmp a b s
  | .ceq a b => Sys2Proof.Machine.execCeq a b s
  | .cne a b => Sys2Proof.Machine.execCne a b s
  | .clt a b => Sys2Proof.Machine.execClt a b s
  | .cle a b => Sys2Proof.Machine.execCle a b s
  | .cgt a b => Sys2Proof.Machine.execCgt a b s
  | .cge a b => Sys2Proof.Machine.execCge a b s
  | .min d a b => Sys2Proof.Machine.execMin d a b s
  | .max d a b => Sys2Proof.Machine.execMax d a b s
  | .neg d a => Sys2Proof.Machine.execNeg d a s
  | .add d a b => Sys2Proof.Machine.execAdd d a b s
  | .sub d a b => Sys2Proof.Machine.execSub d a b s
  | .muls d a => Sys2Proof.Machine.execMuls d a s
  | .divs d a => Sys2Proof.Machine.execDivs d a s

end Sys2Proof.Machine
end

