-- ==== Sys2Proof/Machine/Port.lean ====
section
/-! DEFINITION. The port: what each host transaction does (10_state.md R40, R41), the command step (30_encoding.md R95) and
reset (70_reset_and_hazards.md R240). -/

namespace Sys2Proof.Machine

/-! ## Indices the host gives (R40) -/

/-- The Register with a host's index; none above 3. -/
def xRegAt (i : Nat) : Option XReg := if i < Config.numRegs then some (.ofIndex (BitVec.ofNat 2 i)) else none

/-- The encoded buffer with a host's index; none above 3. -/
def eBufAt (i : Nat) : Option EBuf := if i < Config.numBufs then some (.ofIndex (BitVec.ofNat 2 i)) else none

/-! ## Writing and reading one field -/

/-- Word `j` of a Register value replaced. -/
def setWord (x : Reg) (j : Nat) (w : Word) : Reg := ofWords ((words x).set j w)

/-- A buffer with data byte `k` replaced; none where there is no byte `k`. -/
def Buffer.writeByte {n : Nat} (b : Buffer n) (k : Nat) (v : Byte) : Option (Buffer n) :=
  if h : k < n then some { b with data := b.data.set k v h } else none

/-- Data byte `k`; none where there is no byte `k`. -/
def Buffer.readByte {n : Nat} (b : Buffer n) (k : Nat) : Option Byte := b.data[k]?

/-- WX: only the named word changes. -/
def State.hostWriteX (s : State) (i j : Nat) (w : Word) : Option State :=
  match xRegAt i with
  | none => none
  | some r => if j < Config.regWords then some (s.setX r (setWord (s.getX r) j w)) else none

/-- RX. -/
def State.hostReadX (s : State) (i j : Nat) : Option Reply :=
  match xRegAt i with
  | none => none
  | some r => if j < Config.regWords then some (.word (word (s.getX r) j)) else none

/-- WEL: only the length changes. -/
def State.hostWriteELen (s : State) (i : Nat) (v : Byte) : Option State :=
  (eBufAt i).map fun b => s.setE b { s.getE b with len := v }

/-- REL. -/
def State.hostReadELen (s : State) (i : Nat) : Option Reply := (eBufAt i).map fun b => .byte (s.getE b).len

/-- WEB: only the named byte changes. -/
def State.hostWriteEByte (s : State) (i k : Nat) (v : Byte) : Option State :=
  match eBufAt i with
  | none => none
  | some b => ((s.getE b).writeByte k v).map (s.setE b)

/-- REB. -/
def State.hostReadEByte (s : State) (i k : Nat) : Option Reply :=
  match eBufAt i with
  | none => none
  | some b => ((s.getE b).readByte k).map .byte

/-- WTB: only the named byte changes. -/
def State.hostWriteTin (s : State) (k : Nat) (v : Byte) : Option State :=
  (s.tin.writeByte k v).map fun t => { s with tin := t }

/-- A write to `TOUT.DATA[k]` changes nothing (R30, R41); a byte that does not exist cannot be written. -/
def State.hostWriteTout (s : State) (k : Nat) : Option State := if k < Config.toutMax then some s else none

/-! ## The command step (30_encoding.md R95) -/

/-- WCMD: a legal word runs its command; an illegal one raises IllegalCommand, with no other effect (R84 to R86). -/
def runCommand (w : Word) (s : State) : Host.Outcome State Fault Refusal :=
  match decode w with
  | .ok i => exec i s
  | .error _ => .next (s.fail .illegalCommand)

/-! ## Transactions (10_state.md R40) -/

/-- The end of a write: the state after it, or the refusal of a transaction that does not exist. -/
def written : Option State → Host.Outcome State Fault Refusal
  | some t => .next t
  | none => .refused .noSuchTransaction

/-- The end of a read: only the reply is given (R41), or the transaction does not exist. -/
def State.replied (s : State) : Option Reply → Host.Outcome State Fault Refusal
  | some r => .next { s with resp := some r }
  | none => .refused .noSuchTransaction

/-- One host transaction. -/
def transact (t : Txn) (s : State) : Host.Outcome State Fault Refusal :=
  match t with
  | .wx i j w => written (s.hostWriteX i j w)
  | .rx i j => s.replied (s.hostReadX i j)
  | .wel i v => written (s.hostWriteELen i v)
  | .rel i => s.replied (s.hostReadELen i)
  | .web i k v => written (s.hostWriteEByte i k v)
  | .reb i k => s.replied (s.hostReadEByte i k)
  | .ws w => written (some { s with scalar := w })
  | .rs => s.replied (some (.word s.scalar))
  | .rrem => s.replied (some (.word s.rem))
  | .wtl v => written (some { s with tin := { s.tin with len := v } })
  | .rtl => s.replied (some (.byte s.tin.len))
  | .wtb k v => written (s.hostWriteTin k v)
  | .rtb k => s.replied ((s.tin.readByte k).map .byte)
  | .rol => s.replied (some (.byte s.tout.len))
  | .rob k => s.replied ((s.tout.readByte k).map .byte)
  | .rst => s.replied (some (.word s.status.word))
  | .wcmd w => runCommand w s
  | .wrem _ => written (some s)
  | .wol _ => written (some s)
  | .wob k _ => written (s.hostWriteTout k)
  | .wst _ => written (some s)

/-! ## Events -/

/-- Reset (70_reset_and_hazards.md R240): every piece of state takes its reset value; what the host and the platform do
afterwards is still to come (log 5). -/
def State.resetNow (s : State) : State := { State.reset with port := s.port }

/-- The event at the head of the port is taken off it, and nothing is answered yet (log 1, log 2). -/
def State.accept (s : State) (rest : List Event) : State := { s with port := rest, resp := none }

/-- One event: a transaction, or a reset, which aborts the transaction it falls into (R240; log 5). DESIGN CHOICE (log 5): a reset
during a transaction with an index out of its range is taken like any other and refuses nothing; R40 has a model refuse such a
transaction, and R240 speaks only of transactions that exist. -/
def handle (ev : Event) (s : State) : Host.Outcome State Fault Refusal :=
  match ev with
  | .txn t => transact t s
  | .reset => .next s.resetNow
  | .resetDuring _ => .next s.resetNow

/-- One step: the next event of the port, in issue order (20_memory.md R71); with none, CORE is idle with its state held
(60_exceptions.md R226; 10_state.md R40). -/
def nextEvent (s : State) : Host.Outcome State Fault Refusal :=
  match s.port with
  | [] => .next s
  | ev :: rest => handle ev (s.accept rest)

/-- The host issues WCMD with this word as its very next transaction. -/
def State.presentCommand (s : State) (w : Word) : State := { s with port := .txn (.wcmd w) :: s.port }

end Sys2Proof.Machine
end

