-- ==== Sys2Proof/Machine/Step.lean ====
section
/-! DEFINITION. The step of the machine and the host's way to present one command to it. -/

namespace Sys2Proof.Machine

/-- One step of the machine: one transaction of the host or one reset (10_state.md R40, 30_encoding.md R95). -/
def step (s : State) : Host.Outcome State Fault Refusal := nextEvent s

/-- `s` with the host about to write this command word to CMD, so that the next step runs it (10_state.md R37; log 1). -/
def State.withFetchWord (s : State) (nbits w : Nat) : State := s.presentCommand (tableWord nbits w)

end Sys2Proof.Machine
end

