-- ==== Sys2Proof/Machine/Assembler.lean ====
section
/-! DEFINITION. The assembly syntax (30_encoding.md R90), on a line split into its tokens (log 7). -/

namespace Sys2Proof.Machine

/-- A command's mnemonic in the upper case it is printed in (R90). -/
def mnemonicOf : Opcode → List Char
  | .dec => ['D', 'E', 'C']
  | .decw => ['D', 'E', 'C', 'W']
  | .enc => ['E', 'N', 'C']
  | .parse => ['P', 'A', 'R', 'S', 'E']
  | .fmt => ['F', 'M', 'T']
  | .cmp => ['C', 'M', 'P']
  | .ceq => ['C', 'E', 'Q']
  | .cne => ['C', 'N', 'E']
  | .clt => ['C', 'L', 'T']
  | .cle => ['C', 'L', 'E']
  | .cgt => ['C', 'G', 'T']
  | .cge => ['C', 'G', 'E']
  | .min => ['M', 'I', 'N']
  | .max => ['M', 'A', 'X']
  | .neg => ['N', 'E', 'G']
  | .add => ['A', 'D', 'D']
  | .sub => ['S', 'U', 'B']
  | .muls => ['M', 'U', 'L', 'S']
  | .divs => ['D', 'I', 'V', 'S']

/-- Mnemonics and names are case-insensitive (R90). -/
def upper (cs : List Char) : List Char := cs.map Char.toUpper

/-- The row of the command a mnemonic names. -/
def rowNamed (mnemonic : List Char) : Option OpRow :=
  opcodeMap.find? fun r => mnemonicOf r.op == upper mnemonic

/-- The operand a token names: `X` or `E`, in either case, and one digit. -/
def operandOf : List Char → Option AsmOperand
  | [c, n] =>
    if n.isDigit then
      if c.toUpper = 'X' then some ⟨.reg, n.toNat - '0'.toNat⟩
      else if c.toUpper = 'E' then some ⟨.buf, n.toNat - '0'.toNat⟩
      else none
    else none
  | _ => none

/-- The classes of a command's operands in the order they are written: D, then A, then B (R90). -/
def operandClasses (r : OpRow) : List FieldClass := [r.d, r.a, r.b].filter (· != .unused)

/-- One index field and the operands left: a field of class `0` is zero and takes none. -/
def takeField (c : FieldClass) (os : List AsmOperand) : BitVec 2 × List AsmOperand :=
  if c = .unused then (0, os) else (BitVec.ofNat 2 ((os.head?.map AsmOperand.index).getD 0), os.tail)

/-- The command with these operands in their fields. -/
def placeOperands (r : OpRow) (os : List AsmOperand) : Instr :=
  let d := takeField r.d os
  let a := takeField r.a d.2
  let b := takeField r.b a.2
  r.op.build d.1 a.1 b.1

/-- The checks of R90 on the operands, in the order of `AsmError`. -/
def checkOperands (want : List FieldClass) (os : List AsmOperand) : Except AsmError Unit :=
  if !operandCountOk want os then .error .operandCount
  else if !((want.zip os).all fun p => operandClassOk p.1 p.2) then .error .wrongClass
  else if !(os.all operandIndexOk) then .error .indexAboveThree
  else .ok ()

/-- A line assembles to one command, or is an assembly error and gives no word (R90). -/
def assemble (l : AsmLine) : Except AsmError Instr :=
  match rowNamed l.mnemonic with
  | none => .error .unknownMnemonic
  | some r =>
    match l.operands.mapM operandOf with
    | none => .error .notAnOperand
    | some os =>
      match checkOperands (operandClasses r) os with
      | .error e => .error e
      | .ok _ => .ok (placeOperands r os)

/-! ## Printing -/

/-- The digit of an index. -/
def indexChar (i : BitVec 2) : Char := Char.ofNat ('0'.toNat + i.toNat)

/-- `X0`..`X3`. -/
def xName (r : XReg) : List Char := ['X', indexChar r.index]

/-- `E0`..`E3`. -/
def eName (b : EBuf) : List Char := ['E', indexChar b.index]

/-- A command in upper case, its operands in the order D, A, B (R90). -/
def disassemble : Instr → AsmLine
  | .dec d a => ⟨mnemonicOf .dec, [xName d, eName a]⟩
  | .decw d a => ⟨mnemonicOf .decw, [xName d, eName a]⟩
  | .enc d a => ⟨mnemonicOf .enc, [eName d, xName a]⟩
  | .parse d => ⟨mnemonicOf .parse, [xName d]⟩
  | .fmt a => ⟨mnemonicOf .fmt, [xName a]⟩
  | .cmp a b => ⟨mnemonicOf .cmp, [eName a, eName b]⟩
  | .ceq a b => ⟨mnemonicOf .ceq, [eName a, eName b]⟩
  | .cne a b => ⟨mnemonicOf .cne, [eName a, eName b]⟩
  | .clt a b => ⟨mnemonicOf .clt, [eName a, eName b]⟩
  | .cle a b => ⟨mnemonicOf .cle, [eName a, eName b]⟩
  | .cgt a b => ⟨mnemonicOf .cgt, [eName a, eName b]⟩
  | .cge a b => ⟨mnemonicOf .cge, [eName a, eName b]⟩
  | .min d a b => ⟨mnemonicOf .min, [eName d, eName a, eName b]⟩
  | .max d a b => ⟨mnemonicOf .max, [eName d, eName a, eName b]⟩
  | .neg d a => ⟨mnemonicOf .neg, [xName d, xName a]⟩
  | .add d a b => ⟨mnemonicOf .add, [xName d, xName a, xName b]⟩
  | .sub d a b => ⟨mnemonicOf .sub, [xName d, xName a, xName b]⟩
  | .muls d a => ⟨mnemonicOf .muls, [xName d, xName a]⟩
  | .divs d a => ⟨mnemonicOf .divs, [xName d, xName a]⟩

end Sys2Proof.Machine
end

