-- ==== Sys2Proof/Machine/HostNotation.lean ====
section
/-! DEFINITION. The host-side notation of the programs (30_encoding.md R91): each line stands for host transactions. -/

namespace Sys2Proof.Machine

/-- `WX Xi, v`: `WX(i, j, word j)` for j = 0..7. -/
def noteWX (i : Nat) (v : Reg) : List Txn := (List.range Config.regWords).map fun j => .wx i j (word v j)

/-- `WE Ei, [b0, ..., bn-1]`: `WEL(i, n)`, then `WEB(i, k, bk)` for k < n. Past 32 bytes a `WEB` does not exist (R40). -/
def noteWE (i : Nat) (bs : List Byte) : List Txn :=
  .wel i (BitVec.ofNat 8 bs.length) :: bs.mapIdx fun k b => .web i k b

/-- `WT "text"`: `WTL(len)`, then `WTB(k, byte k)` for each byte. A text longer than TIN cannot be presented
(93_implementation_defined.md I8). -/
def noteWT (text : List Byte) : Option (List Txn) :=
  if text.length ≤ Config.tinMax then
    some (.wtl (BitVec.ofNat 8 text.length) :: text.mapIdx fun k b => .wtb k b)
  else none

/-- `WS v`. -/
def noteWS (v : Word) : List Txn := [.ws v]

/-- `CMD <assembly>`: `WCMD` of the command's word (R81). -/
def noteCMD (i : Instr) : List Txn := [.wcmd (encode i)]

/-- The events of transactions in issue order. -/
def issue (ts : List Txn) : List Event := ts.map .txn

end Sys2Proof.Machine
end

