-- ==== Sys2Proof/Safety.lean ====
section
/-! DEFINITION. What counts as a safe run of CORE, and the terms of the spec that the statements use beside the machine. -/

namespace Sys2Proof.Machine

/-! ## Transactions that exist -/

/-- Every index of the transaction is in the range R40 gives it (10_state.md). -/
def Txn.inRange : Txn → Bool
  | .wx i j _ | .rx i j => i ≤ 3 && j ≤ 7
  | .wel i _ | .rel i => i ≤ 3
  | .web i k _ | .reb i k => i ≤ 3 && k ≤ 31
  | .wtb k _ | .rtb k => k ≤ 254
  | .rob k | .wob k _ => k ≤ 77
  | .ws _ | .rs | .rrem | .wtl _ | .rtl | .rol | .rst | .wcmd _ | .wrem _ | .wol _ | .wst _ => true

/-- Every transaction the event may run exists. A reset runs none, whatever transaction it aborts (log 5). -/
def Event.inRange : Event → Bool
  | .txn t => t.inRange
  | .reset => true
  | .resetDuring _ => true

/-! ## Canonical decimal (41_text.md R125) -/

/-- `Dec(v)`: the decimal digits of `|v|`, most significant first, after `-` if `v < 0`; `0` for zero. -/
def canonicalDecimal (v : Int) : List Byte :=
  if v = 0 then [charZero]
  else
    let digits := (Nat.digits 10 v.natAbs).reverse.map digitChar
    if v < 0 then charMinus :: digits else digits

/-- `P` of R122: the value of digits, most significant first, under a sign. -/
def decimalValue (neg : Bool) (ds : List Byte) : Int :=
  let m : Nat := ds.foldl (fun n c => n * 10 + digit c) 0
  if neg then -m else m

/-- A well-formed decimal text (R121): an optional single sign character, then one or more digits. -/
def SignedDigits (t : List Byte) (neg : Bool) (ds : List Byte) : Prop :=
  ds ≠ [] ∧ (∀ c ∈ ds, 0x30 ≤ c.toNat ∧ c.toNat ≤ 0x39) ∧
    ((t = ds ∧ neg = false) ∨ (t = 0x2B :: ds ∧ neg = false) ∨ (t = 0x2D :: ds ∧ neg = true))

/-! ## The two ends of a command (60_exceptions.md R214, R215) -/

/-- What R214 leaves: ERR holds the code, V is 1 iff the code is Overflow's, and nothing else has changed. -/
def State.raised (s : State) (code : BitVec 3) : State :=
  { s with status := { s.status with err := code, v := code == 5 } }

/-- STATUS after a success that writes neither CR nor T (R215). -/
def Status.done (st : Status) : Status := { st with err := 0, v := false }

/-- STATUS after a success that writes CR with the sign -1, 0 or +1 of `a - b` (10_state.md R34). -/
def Status.doneCR (st : Status) (sgn : Int) : Status := { st with err := 0, v := false, cr := BitVec.ofInt 2 sgn }

/-- The number -1, 0 or +1 that R140 gives for a comparison result. -/
def sgnOf : Ordering → Int
  | .lt => -1
  | .eq => 0
  | .gt => 1

/-- The error codes each command can raise, 0 for its success (60_exceptions.md R212). -/
def codesOf : Instr → List (BitVec 3)
  | .dec .. => [0, 2]
  | .decw .. => [0, 2, 3]
  | .enc .. => [0]
  | .parse .. => [0, 1, 5]
  | .fmt .. => [0]
  | .cmp .. | .ceq .. | .cne .. | .clt .. | .cle .. | .cgt .. | .cge .. => [0, 2]
  | .min .. | .max .. => [0, 2]
  | .neg .. => [0, 5]
  | .add .. | .sub .. => [0, 5]
  | .muls .. => [0, 5]
  | .divs .. => [0, 4]

/-! ## Legal states -/

/-- What the spec says of the state at all times after reset. -/
structure State.Legal (s : State) : Prop where
  /-- ERR = 7 is never written (10_state.md R31, I15). -/
  err_assigned : s.status.err ≠ 7
  /-- CR = 0b10 is never written (R31, I15). -/
  cr_assigned : s.status.cr ≠ 0b10
  /-- V = 1 iff ERR = 5 (R33). -/
  v_iff_overflow : s.status.v = true ↔ s.status.err = 5
  /-- The remainder is at most 2^32 - 2 (44_scalar.md R192, D6). -/
  rem_small : s.rem.toNat ≤ 2 ^ 32 - 2
  /-- TOUT is empty, as reset leaves it, or holds the canonical text of a representable integer (R30, 41_text.md R127). -/
  tout_canonical : s.tout = .reset _ ∨ ∃ n : Int, InRange n ∧ s.tout = .ofBytes _ (canonicalDecimal n)

/-- A state from which no step is refused: it is legal, and every transaction to come exists. -/
structure State.Safe (s : State) : Prop where
  legal : s.Legal
  port_exists : ∀ ev ∈ s.port, ev.inRange = true

end Sys2Proof.Machine
end

