-- ==== Sys2Proof/Certificates/Slice0/Obligations.lean ====
section
/-! DEFINITION. The statements for the provers. Each docstring says which rule of spec/ it formalises. -/

open Sys2Proof Sys2Proof.Machine

/-! ## Command words (30_encoding.md) -/

/-- R85, R87: decode and encode agree in both directions, on every word and every command with every operand. -/
def Obligations.DecodeIffEncode : Prop :=
  ∀ (w : Word) (i : Instr), decode w = .ok i ↔ w = encode i

/-- R87: DecodeCmd, field by field and in its order of checks; a word is legal iff it agrees with exactly one row of R83
under the row's mask, and no word agrees with two (the spec marks this last sentence as derived). -/
def Obligations.DecodeFollowsOpcodeMap : Prop :=
  ∀ w : Word,
    (w.extractLsb' 14 18 ≠ 0 → decode w = .error .reservedBits) ∧
    (w.extractLsb' 14 18 = 0 → (∀ r ∈ opcodeMap, r.code ≠ w.extractLsb' 0 8) →
      decode w = .error .unassignedOpcode) ∧
    (∀ r ∈ opcodeMap, w.extractLsb' 14 18 = 0 → r.code = w.extractLsb' 0 8 →
      decode w =
        if (r.d = .unused ∧ w.extractLsb' 8 2 ≠ 0) ∨ (r.a = .unused ∧ w.extractLsb' 10 2 ≠ 0) ∨
            (r.b = .unused ∧ w.extractLsb' 12 2 ≠ 0) then .error .unusedField
        else .ok (r.op.build (w.extractLsb' 8 2) (w.extractLsb' 10 2) (w.extractLsb' 12 2))) ∧
    ((∃ i, decode w = .ok i) ↔ (opcodeMap.filter fun r => w &&& r.mask == r.pattern).length = 1) ∧
    (opcodeMap.filter fun r => w &&& r.mask == r.pattern).length ≤ 1

/-- R84, R85, R86: a set reserved bit, an opcode that R86 lists or a non-zero unused field makes WCMD raise
IllegalCommand (ERR 6) and nothing else; every other word is a command, and no two words are the same command. -/
def Obligations.IllegalWordRaisesIllegalCommand : Prop :=
  ∀ w : Word,
    let op := (w.extractLsb' 0 8).toNat
    let illegal : Prop :=
      w.extractLsb' 14 18 ≠ 0 ∨
      (op = 0 ∨ (0x04 ≤ op ∧ op ≤ 0x0F) ∨ (0x12 ≤ op ∧ op ≤ 0x1F) ∨ (0x29 ≤ op ∧ op ≤ 0x2F) ∨
        (0x33 ≤ op ∧ op ≤ 0x3F) ∨ 0x42 ≤ op) ∨
      ((op = 0x11 ∨ (0x20 ≤ op ∧ op ≤ 0x26)) ∧ w.extractLsb' 8 2 ≠ 0) ∨
      (op = 0x10 ∧ w.extractLsb' 10 2 ≠ 0) ∨
      ((op ≤ 0x11 ∨ op = 0x30 ∨ op = 0x40 ∨ op = 0x41) ∧ w.extractLsb' 12 2 ≠ 0)
    (illegal → ∀ s : State, transact (.wcmd w) s = .next (s.raised 6)) ∧
    (¬ illegal → ∃ i, decode w = .ok i) ∧
    (∀ (w' : Word) (i : Instr), decode w = .ok i → decode w' = .ok i → w = w')

/-- The checks of WellFormed on a word (R84 to R86) and the decoder accept the same words. -/
def Obligations.WellFormedWordsAreTheDecodedOnes : Prop :=
  ∀ w : Word, wordWellFormed w = true ↔ ∃ i, decode w = .ok i

/-- Words written out from the examples of R106, R107, R124, R142, R149, R172 and R192 decode to the commands the spec
writes beside them. -/
def Obligations.ExampleWordsDecode : Prop :=
  decode 0x00000101 = .ok (.dec .x1 .e0) ∧ decode 0x00000802 = .ok (.decw .x0 .e2) ∧
  decode 0x00000010 = .ok (.parse .x0) ∧ decode 0x00001020 = .ok (.cmp .e0 .e1) ∧
  decode 0x00001227 = .ok (.min .e2 .e0 .e1) ∧ decode 0x00001231 = .ok (.add .x2 .x0 .x1) ∧
  decode 0x00000141 = .ok (.divs .x1 .x0)

/-- R90: a line assembles to a command iff, case aside, it is the command's printed form (token by token; log 7). -/
def Obligations.AssembleIffPrinted : Prop :=
  ∀ (l : AsmLine) (i : Instr),
    assemble l = .ok i ↔ disassemble i = ⟨upper l.mnemonic, l.operands.map upper⟩

/-! ## The step (R95, R37, R40, R226) -/

/-- R95, R71: the step takes the first event of the port; a WCMD whose word decodes to `i` is `exec i` on the state with that
event taken off the port, and any other transaction is itself on that state (log 1, log 2). -/
def Obligations.StepRunsDecodedCommand : Prop :=
  ∀ (s : State) (rest : List Event),
    (∀ (w : Word) (i : Instr), s.port = .txn (.wcmd w) :: rest → decode w = .ok i →
      step s = exec i { s with port := rest, resp := none }) ∧
    (∀ x : Txn, s.port = .txn x :: rest → step s = transact x { s with port := rest, resp := none })

/-- The command presented by `withFetchWord` is what the very next step runs, whatever the port held (log 1). -/
def Obligations.PresentedWordRunsNext : Prop :=
  ∀ (s : State) (nbits w : Nat) (i : Instr), decodeTableWord nbits w = some i →
    step (s.withFetchWord nbits w) = exec i { s with resp := none }

/-- R226, R40: with no transaction at the port CORE is idle with its state held. -/
def Obligations.IdleHoldsState : Prop :=
  ∀ s : State, s.port = [] → step s = .next s

/-- R217, R218: a command's outcome does not depend on the ERR and V that the commands before it left. -/
def Obligations.ErrorsAreNotSticky : Prop :=
  ∀ (i : Instr) (s : State) (err : BitVec 3) (v : Bool),
    exec i { s with status := { s.status with err := err, v := v } } = exec i s

/-- R25: a command does not read the bytes of an encoded buffer at or above its LEN. Two states that differ only in such
bytes end in states that differ only in such bytes. -/
def Obligations.BytesBeyondLengthAreNotRead : Prop :=
  ∀ (i : Instr) (s s' : State),
    (∀ b, (s.getE b).len = (s'.getE b).len ∧
      ∀ k < (s.getE b).len.toNat, (s.getE b).data.toList[k]? = (s'.getE b).data.toList[k]?) →
    s' = { s with e := s'.e } →
    ∃ t t' : State, exec i s = .next t ∧ exec i s' = .next t' ∧ t' = { t with e := t'.e } ∧
      ∀ b, (t.getE b).len = (t'.getE b).len ∧
        ∀ k < (t.getE b).len.toNat, (t.getE b).data.toList[k]? = (t'.getE b).data.toList[k]?

/-! ## Errors (60_exceptions.md) -/

/-- R214: whatever command word is written, if it ends in an error then only ERR and V have changed, V says whether the error
is Overflow, and the code is one of 1 to 6. -/
def Obligations.ErrorChangesOnlyErrAndV : Prop :=
  ∀ (s t : State) (w : Word),
    transact (.wcmd w) s = .next t → t.status.err ≠ 0 →
    t = s.raised t.status.err ∧ t.status.err.toNat ≤ 6

/-- R212: each command raises only the errors of its row; a word that does not decode raises IllegalCommand. -/
def Obligations.CommandsRaiseOnlyTheirErrors : Prop :=
  ∀ s : State,
    (∀ i : Instr, ∃ t, exec i s = .next t ∧ t.status.err ∈ codesOf i) ∧
    (∀ (w : Word) (e : Illegal), decode w = .error e → ∃ t, transact (.wcmd w) s = .next t ∧ t.status.err = 6)

/-- R31: the word the host reads has ERR in [2:0], V in [3], CR in [5:4], T in [6], and 0 in the reserved bits. -/
def Obligations.StatusWordLayout : Prop :=
  ∀ s : State,
    transact .rst s = .next { s with resp := some (.word s.status.word) } ∧
    s.status.word.extractLsb' 0 3 = s.status.err ∧ s.status.word.getLsbD 3 = s.status.v ∧
    s.status.word.extractLsb' 4 2 = s.status.cr ∧ s.status.word.getLsbD 6 = s.status.t ∧
    s.status.word.extractLsb' 7 25 = 0

/-! ## Reset and legal states (10_state.md R42, 70_reset_and_hazards.md R240) -/

/-- R42: reset gives every piece of state the value of the table, between transactions and during one (R240). That
reset is an event of the port, taken also during a transaction whose index is out of range, is the model's choice (log 5). -/
def Obligations.ResetGivesTableValues : Prop :=
  ∀ (s : State) (ev : Event) (t' : Txn) (rest : List Event),
    ev = .reset ∨ ev = .resetDuring t' → s.port = ev :: rest →
    ∃ t, step s = .next t ∧
      (∀ r, ∀ j < 8, word (t.getX r) j = 0) ∧
      (∀ b, (t.getE b).len = 0 ∧ ∀ k < 32, (t.getE b).data.toList[k]? = some 0) ∧
      t.scalar = 0 ∧ t.rem = 0 ∧
      t.tin.len = 0 ∧ (∀ k < 255, t.tin.data.toList[k]? = some 0) ∧
      t.tout.len = 0 ∧ (∀ k < 78, t.tout.data.toList[k]? = some 0) ∧
      t.status.word = 0

/-- The model's reset (log 5): it leaves exactly `State.reset`, with the rest of the port still to come. -/
def Obligations.ResetLeavesResetState : Prop :=
  ∀ (s : State) (rest : List Event), s.port = .reset :: rest ∨ (∃ t, s.port = .resetDuring t :: rest) →
    step s = .next { State.reset with port := rest }

/-- R242: after reset every command succeeds, but for PARSE (InvalidSyntax, TIN is empty) and DIVS (DivisionByZero, S is
0); an ADD gives 0 and a CMP gives Equal. -/
def Obligations.ResetStateIsLegalOperand : Prop :=
  (∀ i : Instr, ∃ t, exec i State.reset = .next t ∧
    t.status.err = match i with
      | .parse _ => 1
      | .divs _ _ => 4
      | _ => 0) ∧
  (∀ d a b, ∃ t, exec (.add d a b) State.reset = .next t ∧ t.getX d = 0) ∧
  (∀ a b, ∃ t, exec (.cmp a b) State.reset = .next t ∧ t.status.cr = 0b00)

/-- The reset state is legal. -/
def Obligations.ResetIsLegal : Prop := State.reset.Legal

/-- Every step keeps a legal state legal: ERR is never 7, CR never 0b10, V agrees with ERR, REM stays below 2^32 - 1, and TOUT
is empty or the canonical text of a representable integer (R30, R31, R33, R192; I15). -/
def Obligations.StepKeepsLegal : Prop :=
  ∀ s t : State, s.Legal → step s = .next t → t.Legal

/-- From a legal state whose pending transactions exist, any number of steps goes on, to a legal state: nothing is refused
and nothing faults (R40, R210, R217; a reset is taken whatever transaction it aborts: log 5). -/
def Obligations.SafeRunsNeverStop : Prop :=
  ∀ (n : Nat) (s : State), s.Safe →
    ∃ t : State, (Host.Core.run core n s : Host.Outcome State Fault Refusal) = .next t ∧ t.Safe

/-! ## Encoder and decoder (40_codec.md) -/

/-- R25, R100, R120: the bytes a command reads are `DATA[0..LEN-1]`, for an encoded buffer only when LEN is at most 32. -/
def Obligations.OperandBytesAreTheData : Prop :=
  ∀ s : State,
    (∀ b, (32 < (s.getE b).len.toNat → readEnc s b = .error .tooLong) ∧
      ((s.getE b).len.toNat ≤ 32 → ∃ l, readEnc s b = .ok l ∧ l.length = (s.getE b).len.toNat ∧
        ∀ k < l.length, l[k]? = (s.getE b).data.toList[k]?)) ∧
    s.tinText.length = s.tin.len.toNat ∧ ∀ k < s.tin.len.toNat, s.tinText[k]? = s.tin.data.toList[k]?

/-- R103: DecodeBytes fills the missing bytes with the sign, byte `k` at bits `[8k+7:8k]` and word `j` from bytes `4j` to
`4j+3`; the empty list gives 0, and any other the two's-complement value of its bytes. -/
def Obligations.DecodeBytesIsSignExtension : Prop :=
  ∀ b : List Byte, b.length ≤ 32 →
    let n := b.length
    let pad : Byte := if 0 < n ∧ (b.getD (n - 1) 0).msb then 0xFF else 0x00
    let c : Nat → Byte := fun k => if k < n then b.getD k 0 else pad
    (∀ k < 32, byte (decodeBytes b) k = c k) ∧
    (∀ j < 8, word (decodeBytes b) j = c (4 * j + 3) ++ c (4 * j + 2) ++ c (4 * j + 1) ++ c (4 * j)) ∧
    (n = 0 → decodeBytes b = 0) ∧
    (1 ≤ n → val (decodeBytes b) = (BitVec.ofNat (8 * n) (bytesToNat b)).toInt)

/-- R101: MinLen is the least length that decodes back; it is 0 for 0 only, and for any other value the least `n ≥ 1` whose
two's-complement range holds it (the spec marks the ranges as derived from R103 and R9). -/
def Obligations.MinLenIsLeastLength : Prop :=
  ∀ x : Reg,
    decodeBytes (bytes x 32) = x ∧ minLen x ≤ 32 ∧ decodeBytes (bytes x (minLen x)) = x ∧
    (∀ n < minLen x, decodeBytes (bytes x n) ≠ x) ∧
    (minLen x = 0 ↔ x = 0) ∧
    (∀ n, 1 ≤ n → n ≤ 32 →
      (minLen x ≤ n ↔ -(2 : Int) ^ (8 * n - 1) ≤ val x ∧ val x ≤ (2 : Int) ^ (8 * n - 1) - 1))

/-- R102: the scan gives the same length as the definition, for every Register value (the spec marks it as derived). -/
def Obligations.ScanGivesMinLen : Prop :=
  ∀ x : Reg, minLenScan x = minLen x

/-- R105: the wire check fails exactly on a trailing 0x00 that follows nothing or a byte below 0x80. -/
def Obligations.WireCheckRejectsRedundantZero : Prop :=
  ∀ b : List Byte, wireCheckPasses b = false ↔
    1 ≤ b.length ∧ b.getD (b.length - 1) 0 = 0x00 ∧ ¬ (2 ≤ b.length ∧ (b.getD (b.length - 2) 0).msb = true)

/-- R106: DEC. -/
def Obligations.DecRule : Prop :=
  ∀ (d : XReg) (a : EBuf) (s : State),
    (encode (.dec d a)).toNat = 0x01 + 2 ^ 8 * d.index.toNat + 2 ^ 10 * a.index.toNat ∧
    ((s.getE a).len.toNat ≤ 32 →
      exec (.dec d a) s =
        .next { s with x := s.x.set d (decodeBytes (s.getE a).contents), status := s.status.done }) ∧
    (32 < (s.getE a).len.toNat → exec (.dec d a) s = .next (s.raised 2))

/-- R107: DECW. -/
def Obligations.DecwRule : Prop :=
  ∀ (d : XReg) (a : EBuf) (s : State),
    let n := (s.getE a).len.toNat
    let data := (s.getE a).data.toList
    let malformed : Prop := 1 ≤ n ∧ data.getD (n - 1) 0 = 0x00 ∧ (n = 1 ∨ (data.getD (n - 2) 0).toNat < 0x80)
    (encode (.decw d a)).toNat = 0x02 + 2 ^ 8 * d.index.toNat + 2 ^ 10 * a.index.toNat ∧
    (32 < n → exec (.decw d a) s = .next (s.raised 2)) ∧
    (n ≤ 32 → malformed → exec (.decw d a) s = .next (s.raised 3)) ∧
    (n ≤ 32 → ¬ malformed →
      exec (.decw d a) s =
        .next { s with x := s.x.set d (decodeBytes (data.take n)), status := s.status.done })

/-- R108, R104: ENC writes the minimal length, the low bytes, and 0x00 above them; it cannot fail. -/
def Obligations.EncRule : Prop :=
  ∀ (d : EBuf) (a : XReg) (s : State),
    (encode (.enc d a)).toNat = 0x03 + 2 ^ 8 * d.index.toNat + 2 ^ 10 * a.index.toNat ∧
    ∃ buf : Buffer 32,
      buf.len.toNat = minLen (s.getX a) ∧
      (∀ k < 32, buf.data.toList[k]? = some (if k < minLen (s.getX a) then byte (s.getX a) k else 0x00)) ∧
      exec (.enc d a) s = .next { s with e := s.e.set d buf, status := s.status.done }

/-- R109: the two ways to say a list is minimal agree, and the five laws of the encoding, on byte lists (the spec marks them as derived). -/
def Obligations.EncodingLaws : Prop :=
  (∀ b : List Byte, minimal b = true ↔ b.length ≤ 32 ∧ b.length = minLen (decodeBytes b)) ∧
  (∀ b : List Byte, minimal b = true ↔
    b.length = 0 ∨ (b.length = 1 ∧ b.getD 0 0 ≠ 0x00) ∨
    (2 ≤ b.length ∧ b.length ≤ 32 ∧
      b.getD (b.length - 1) 0 ≠ if (b.getD (b.length - 2) 0).msb then 0xFF else 0x00)) ∧
  (∀ x : Reg, decodeBytes (minimalEncoding x) = x) ∧
  (∀ b, minimal b = true → minimalEncoding (decodeBytes b) = b) ∧
  (∀ b, b.length ≤ 32 → minimal b = false →
    decodeBytes (minimalEncoding (decodeBytes b)) = decodeBytes b ∧
      (minimalEncoding (decodeBytes b)).length < b.length) ∧
  (∀ n : Int, InRange n → ∃! b, minimal b = true ∧ val (decodeBytes b) = n) ∧
  (∀ x y : Reg, minimalEncoding x = minimalEncoding y ↔ x = y) ∧
  (∀ b, minimal b = true → wireCheckPasses b = true)

/-- R109 on the machine. An ENC and then a DEC (law 1), or a DECW (law 5), of the same buffer restores the Register's value. A
DEC and then an ENC gives back the bytes of a minimal encoding (law 2), and a shorter encoding of the same value otherwise
(law 3). All of them succeed. The spec marks the laws as derived. -/
def Obligations.EncodeDecodeRoundTrips : Prop :=
  ∀ (b c : EBuf) (a r : XReg) (s : State),
    (∃ t u w : State, exec (.enc b a) s = .next t ∧
      exec (.dec r b) t = .next u ∧ u.status.err = 0 ∧ u.getX r = s.getX a ∧
      exec (.decw r b) t = .next w ∧ w.status.err = 0 ∧ w.getX r = s.getX a) ∧
    ((s.getE b).len.toNat ≤ 32 →
      ∃ t u : State, exec (.dec r b) s = .next t ∧ t.status.err = 0 ∧
        exec (.enc c r) t = .next u ∧ u.status.err = 0 ∧
        (minimal (s.getE b).contents = true → (u.getE c).contents = (s.getE b).contents) ∧
        (minimal (s.getE b).contents = false →
          (u.getE c).contents.length < (s.getE b).contents.length ∧
            decodeBytes (u.getE c).contents = decodeBytes (s.getE b).contents))

/-! ## Decimal parser and formatter (41_text.md) -/

/-- R123: the chunk algorithm raises Overflow exactly when the value of R122 is out of range, and else gives that value, for
texts of any length (the spec marks it as derived from R122; character codes: log 6). -/
def Obligations.ChunkParseIsExact : Prop :=
  ∀ (neg : Bool) (ds : List Byte), (∀ c ∈ ds, 0x30 ≤ c.toNat ∧ c.toNat ≤ 0x39) →
    chunkParse neg ds =
      if InRange (decimalValue neg ds) then .ok (enc256 (decimalValue neg ds)) else .error .overflow

/-- R121, R124: PARSE. A text that is no signed digits raises InvalidSyntax; else Overflow exactly out of range; else the
value is written (character codes: log 6). -/
def Obligations.ParseRule : Prop :=
  ∀ (d : XReg) (s : State),
    (encode (.parse d)).toNat = 0x10 + 2 ^ 8 * d.index.toNat ∧
    ((∀ neg ds, ¬ SignedDigits s.tinText neg ds) → exec (.parse d) s = .next (s.raised 1)) ∧
    (∀ neg ds, SignedDigits s.tinText neg ds → ¬ InRange (decimalValue neg ds) →
      exec (.parse d) s = .next (s.raised 5)) ∧
    (∀ neg ds, SignedDigits s.tinText neg ds → InRange (decimalValue neg ds) →
      exec (.parse d) s =
        .next { s with x := s.x.set d (enc256 (decimalValue neg ds)), status := s.status.done })

/-- R126: the group algorithm gives the canonical decimal of R125, for every Register value (character
codes: log 6; nine groups are enough: log 13). -/
def Obligations.FormatGroupsIsCanonical : Prop :=
  ∀ x : Reg, formatGroups x = canonicalDecimal (val x)

/-- R127: FMT writes the canonical decimal, 1 to 78 bytes, and 0x00 above it; it cannot fail (character codes: log 6). -/
def Obligations.FmtRule : Prop :=
  ∀ (a : XReg) (s : State),
    let text := canonicalDecimal (val (s.getX a))
    (encode (.fmt a)).toNat = 0x11 + 2 ^ 10 * a.index.toNat ∧
    1 ≤ text.length ∧ text.length ≤ 78 ∧
    ∃ buf : Buffer 78,
      buf.len.toNat = text.length ∧
      (∀ k < 78, buf.data.toList[k]? = some (if k < text.length then text.getD k 0 else 0x00)) ∧
      exec (.fmt a) s = .next { s with tout := buf, status := s.status.done }

/-- R128: the laws of the decimal codec. Law 1: a text `Dec(val x)` in TIN parses back to `x`. Law 2: FMT of what a well-formed
text in range parses to gives its canonical text, which is the digits without leading zeros under a `-` where the value is
negative, and `0` for zero. Law 3: a canonical text has no leading zero, no `+` and at most 78 bytes. (The spec marks the laws as derived; character codes: log 6.) -/
def Obligations.DecimalLaws : Prop :=
  (∀ (x : Reg) (d : XReg) (s : State), s.tinText = canonicalDecimal (val x) →
    exec (.parse d) s = .next { s with x := s.x.set d x, status := s.status.done }) ∧
  (∀ (d : XReg) (s : State) (neg : Bool) (ds : List Byte),
    SignedDigits s.tinText neg ds → InRange (decimalValue neg ds) →
    ∃ t u : State, exec (.parse d) s = .next t ∧ exec (.fmt d) t = .next u ∧
      u.tout.contents = canonicalDecimal (decimalValue neg ds) ∧
      canonicalDecimal (decimalValue neg ds) =
        if decimalValue neg ds = 0 then [0x30]
        else (if neg then [0x2D] else []) ++ ds.dropWhile (· == 0x30)) ∧
  (∀ x : Reg,
    let text := canonicalDecimal (val x)
    text.length ≤ 78 ∧ text.head? ≠ some 0x2B ∧
    (text.head? = some 0x30 → text = [0x30]) ∧ ¬ [0x2D, 0x30] <+: text)

/-! ## Comparator (42_compare.md) -/

/-- R140: CmpEnc by the index of the byte that decides. -/
def Obligations.CmpEncByIndex : Prop :=
  ∀ a b : List Byte,
    (b.length < a.length → cmpEnc a b = if (a.getD (a.length - 1) 0).msb then .lt else .gt) ∧
    (a.length < b.length → cmpEnc a b = if (b.getD (b.length - 1) 0).msb then .gt else .lt) ∧
    (a = [] → b = [] → cmpEnc a b = .eq) ∧
    (∀ n, a.length = n + 1 → b.length = n + 1 →
      let x := fun k => a.getD k 0
      let y := fun k => b.getD k 0
      (x n ≠ y n → cmpEnc a b = if ((y n) ^^^ 0x80).toNat < ((x n) ^^^ 0x80).toNat then .gt else .lt) ∧
      (x n = y n → ∀ k < n, x k ≠ y k → (∀ m, k < m → m < n → x m = y m) →
        cmpEnc a b = if (y k).toNat < (x k).toNat then .gt else .lt) ∧
      (x n = y n → (∀ k < n, x k = y k) → cmpEnc a b = .eq))

/-- R141: on minimal encodings the comparison is the order of the integers, hence antisymmetric and transitive; it is Equal
exactly on the same bytes, minimal or not (the spec marks the laws as derived from R140, R101 and R109). -/
def Obligations.CompareIsIntegerOrder : Prop :=
  (∀ a b, minimal a = true → minimal b = true →
    cmpEnc a b = compare (val (decodeBytes a)) (val (decodeBytes b)) ∧ cmpEnc a b = (cmpEnc b a).swap) ∧
  (∀ a b c, minimal a = true → minimal b = true → minimal c = true →
    cmpEnc a b ≠ .gt → cmpEnc b c ≠ .gt → cmpEnc a c ≠ .gt) ∧
  (∀ a b, cmpEnc a b = .eq ↔ a = b)

/-- R142: CMP. -/
def Obligations.CmpRule : Prop :=
  ∀ (a b : EBuf) (s : State),
    (encode (.cmp a b)).toNat = 0x20 + 2 ^ 10 * a.index.toNat + 2 ^ 12 * b.index.toNat ∧
    (32 < (s.getE a).len.toNat ∨ 32 < (s.getE b).len.toNat → exec (.cmp a b) s = .next (s.raised 2)) ∧
    ((s.getE a).len.toNat ≤ 32 → (s.getE b).len.toNat ≤ 32 →
      exec (.cmp a b) s =
        .next { s with status := s.status.doneCR (sgnOf (cmpEnc (s.getE a).contents (s.getE b).contents)) })

/-- R143 to R148: the predicates CEQ, CNE, CLT, CLE, CGT, CGE. -/
def Obligations.PredicateRules : Prop :=
  ∀ (a b : EBuf) (s : State) (i : Instr) (op : Nat) (truth : Int → Bool),
    (i, op, truth) ∈ ([(.ceq a b, 0x21, fun c => c == 0), (.cne a b, 0x22, fun c => c != 0),
      (.clt a b, 0x23, fun c => c == -1), (.cle a b, 0x24, fun c => c != 1),
      (.cgt a b, 0x25, fun c => c == 1), (.cge a b, 0x26, fun c => c != -1)] : List (Instr × Nat × (Int → Bool))) →
    let c := sgnOf (cmpEnc (s.getE a).contents (s.getE b).contents)
    (encode i).toNat = op + 2 ^ 10 * a.index.toNat + 2 ^ 12 * b.index.toNat ∧
    (32 < (s.getE a).len.toNat ∨ 32 < (s.getE b).len.toNat → exec i s = .next (s.raised 2)) ∧
    ((s.getE a).len.toNat ≤ 32 → (s.getE b).len.toNat ≤ 32 →
      exec i s = .next { s with status := ⟨0, false, BitVec.ofInt 2 c, truth c⟩ })

/-- R149, R150: MIN and MAX copy the smaller or larger list, A's on a tie, with 0x00 above its length, and write CR. -/
def Obligations.MinMaxRules : Prop :=
  ∀ (d a b : EBuf) (s : State) (i : Instr) (op : Nat) (pickB : Int),
    (i, op, pickB) ∈ ([(.min d a b, 0x27, 1), (.max d a b, 0x28, -1)] : List (Instr × Nat × Int)) →
    let x := (s.getE a).contents
    let y := (s.getE b).contents
    let c := sgnOf (cmpEnc x y)
    let r := if c = pickB then y else x
    (encode i).toNat = op + 2 ^ 8 * d.index.toNat + 2 ^ 10 * a.index.toNat + 2 ^ 12 * b.index.toNat ∧
    (32 < (s.getE a).len.toNat ∨ 32 < (s.getE b).len.toNat → exec i s = .next (s.raised 2)) ∧
    ((s.getE a).len.toNat ≤ 32 → (s.getE b).len.toNat ≤ 32 →
      ∃ buf : Buffer 32,
        buf.len.toNat = r.length ∧
        (∀ k < 32, buf.data.toList[k]? = some (if k < r.length then r.getD k 0 else 0x00)) ∧
        exec i s = .next { s with e := s.e.set d buf, status := s.status.doneCR c })

/-- R141, R149, R150 on values: between minimal encodings, MIN leaves the encoding of the smaller integer in the destination and
MAX that of the larger one. -/
def Obligations.MinMaxPickTheInteger : Prop :=
  ∀ (d a b : EBuf) (x y : Reg) (s : State),
    s.getE a = .ofBytes 32 (minimalEncoding x) → s.getE b = .ofBytes 32 (minimalEncoding y) →
    (∃ t : State, exec (.min d a b) s = .next t ∧ val (decodeBytes (t.getE d).contents) = min (val x) (val y)) ∧
    (∃ t : State, exec (.max d a b) s = .next t ∧ val (decodeBytes (t.getE d).contents) = max (val x) (val y))

/-! ## Negate, add and subtract (43_arith.md) -/

/-- R171: NEG. The word loop gives the exact negation, and Overflow is raised on the most-negative value only. -/
def Obligations.NegRule : Prop :=
  ∀ (d a : XReg) (s : State),
    (encode (.neg d a)).toNat = 0x30 + 2 ^ 8 * d.index.toNat + 2 ^ 10 * a.index.toNat ∧
    (val (s.getX a) ≠ -(2 : Int) ^ 255 →
      val (enc256 (-val (s.getX a))) = -val (s.getX a) ∧
      exec (.neg d a) s = .next { s with x := s.x.set d (enc256 (-val (s.getX a))), status := s.status.done }) ∧
    (val (s.getX a) = -(2 : Int) ^ 255 → exec (.neg d a) s = .next (s.raised 5))

/-- R170, R172: ADD. The word loop gives the exact sum mod 2^256; Overflow is raised exactly when the exact sum is out of range, which
is exactly when the operands share a sign and the wrapped sum's differs. -/
def Obligations.AddRule : Prop :=
  ∀ (d a b : XReg) (s : State),
    let x := s.getX a
    let y := s.getX b
    let sum := val x + val y
    (encode (.add d a b)).toNat =
      0x31 + 2 ^ 8 * d.index.toNat + 2 ^ 10 * a.index.toNat + 2 ^ 12 * b.index.toNat ∧
    rawAdd x y = enc256 sum ∧
    (¬ InRange sum ↔ sign x = sign y ∧ sign (enc256 sum) ≠ sign x) ∧
    (InRange sum → exec (.add d a b) s = .next { s with x := s.x.set d (enc256 sum), status := s.status.done }) ∧
    (¬ InRange sum → exec (.add d a b) s = .next (s.raised 5))

/-- R170, R173: SUB. The word loop gives the exact difference mod 2^256; Overflow is raised exactly when the exact difference is out of
range, which is exactly when the signs differ and the wrapped difference's sign is not the minuend's. -/
def Obligations.SubRule : Prop :=
  ∀ (d a b : XReg) (s : State),
    let x := s.getX a
    let y := s.getX b
    let diff := val x - val y
    (encode (.sub d a b)).toNat =
      0x32 + 2 ^ 8 * d.index.toNat + 2 ^ 10 * a.index.toNat + 2 ^ 12 * b.index.toNat ∧
    rawSub x y = enc256 diff ∧
    (¬ InRange diff ↔ sign x ≠ sign y ∧ sign (enc256 diff) ≠ sign x) ∧
    (InRange diff → exec (.sub d a b) s = .next { s with x := s.x.set d (enc256 diff), status := s.status.done }) ∧
    (¬ InRange diff → exec (.sub d a b) s = .next (s.raised 5))

/-- R174: the identities of NEG, ADD and SUB. `n` is the Register the negation goes to; it is not the one the identity still
reads. (The spec marks the identities as derived from R170.) -/
def Obligations.ArithmeticIdentities : Prop :=
  (∀ (d a n : XReg) (s t : State), n ≠ a → exec (.neg n a) s = .next t → t.status.err = 0 →
    ∃ u, exec (.add d a n) t = .next u ∧ u.status.err = 0 ∧ u.getX d = 0) ∧
  (∀ (d a b n : XReg) (s t u v : State), n ≠ a →
    exec (.sub d a b) s = .next t → t.status.err = 0 →
    exec (.neg n b) s = .next u → exec (.add d a n) u = .next v → u.status.err = 0 → v.status.err = 0 →
    v.getX d = t.getX d) ∧
  (∀ (d a b n : XReg) (s : State), val (s.getX a) = -1 → val (s.getX b) = Config.minV →
    ∃ t u, exec (.sub d a b) s = .next t ∧ t.status.err = 0 ∧ val (t.getX d) = Config.maxV ∧
      exec (.neg n b) s = .next u ∧ u.status.err = 5) ∧
  (∀ (d a : XReg) (s : State), ∃ t, exec (.neg d a) s = .next t ∧
    (t.status.err = 5 ↔ val (s.getX a) = Config.minV)) ∧
  (∀ (d a b : XReg) (s : State) (k : Int), k = val (s.getX a) + val (s.getX b) →
    ∃ t, exec (.add d a b) s = .next t ∧
      (k = Config.maxV ∨ k = Config.minV → t.status.err = 0 ∧ val (t.getX d) = k) ∧
      (k = Config.maxV + 1 ∨ k = Config.minV - 1 → t.status.err = 5)) ∧
  (∀ (d a b : XReg) (s : State) (k : Int), k = val (s.getX a) - val (s.getX b) →
    ∃ t, exec (.sub d a b) s = .next t ∧
      (k = Config.maxV ∨ k = Config.minV → t.status.err = 0 ∧ val (t.getX d) = k) ∧
      (k = Config.maxV + 1 ∨ k = Config.minV - 1 → t.status.err = 5))

/-! ## Scalar multiply and divide (44_scalar.md) -/

/-- R190: Mag is the absolute value, at most 2^255, that of -2^255 included. -/
def Obligations.MagIsAbsoluteValue : Prop :=
  ∀ x : Reg, mag x = (val x).natAbs ∧ mag x ≤ 2 ^ 255 ∧
    mag x = if (x.getLsbD 255) then (2 ^ 256 - x.toNat) % 2 ^ 256 else x.toNat

/-- R191: MULS. The word loop gives the exact product; Overflow is raised exactly when it is out of range. -/
def Obligations.MulsRule : Prop :=
  ∀ (d a : XReg) (s : State),
    let product := val (s.getX a) * s.scalar.toNat
    (encode (.muls d a)).toNat = 0x40 + 2 ^ 8 * d.index.toNat + 2 ^ 10 * a.index.toNat ∧
    magProduct (s.getX a) s.scalar = mag (s.getX a) * s.scalar.toNat ∧
    (InRange product →
      exec (.muls d a) s = .next { s with x := s.x.set d (enc256 product), status := s.status.done }) ∧
    (¬ InRange product → exec (.muls d a) s = .next (s.raised 5))

/-- R192: DIVS. The quotient is truncated toward zero, REM is the absolute remainder, both are written together and only when S is
not 0, and the quotient is always in range. -/
def Obligations.DivsRule : Prop :=
  ∀ (d a : XReg) (s : State),
    let v := val (s.getX a)
    let m := s.scalar.toNat
    let q := v.tdiv m
    let r := v.natAbs % m
    (encode (.divs d a)).toNat = 0x41 + 2 ^ 8 * d.index.toNat + 2 ^ 10 * a.index.toNat ∧
    (m = 0 → exec (.divs d a) s = .next (s.raised 4)) ∧
    (0 < m →
      InRange q ∧ r < m ∧ q = v.sign * (v.natAbs / m : Nat) ∧
      (0 ≤ v → v = q * m + r) ∧ (v < 0 → v = q * m - r) ∧
      exec (.divs d a) s =
        .next { s with x := s.x.set d (enc256 q), rem := BitVec.ofNat 32 r, status := s.status.done })

/-- R193: the rows of the table of integer results, MULS and DIVS side by side (the spec marks them as derived from R191 and R192). -/
def Obligations.ScalarResultTable : Prop :=
  ∀ (d a : XReg) (s : State), ∃ t u : State,
    exec (.muls d a) s = .next t ∧ exec (.divs d a) s = .next u ∧
    let v := val (s.getX a)
    let m := s.scalar.toNat
    (m = 0 → val (t.getX d) = 0 ∧ t.status.err = 0 ∧ u.status.err = 4 ∧ u.getX d = s.getX d ∧ u.rem = s.rem) ∧
    (0 < m → v = 0 → val (t.getX d) = 0 ∧ val (u.getX d) = 0 ∧ u.rem = 0) ∧
    (0 < m → 0 < v →
      (if 2 ^ 255 - 1 < v * m then t.status.err = 5 else val (t.getX d) = v * m) ∧
      val (u.getX d) = v / m ∧ (u.rem.toNat : Int) = v % m) ∧
    (0 < m → v < 0 →
      (if v * m < -(2 ^ 255) then t.status.err = 5 else val (t.getX d) = v * m) ∧
      val (u.getX d) = -(-v / m) ∧ (u.rem.toNat : Int) = -v % m) ∧
    (v = 7 → m = 2 → val (t.getX d) = 14 ∧ val (u.getX d) = 3 ∧ u.rem = 1) ∧
    (v = -7 → m = 2 → val (t.getX d) = -14 ∧ val (u.getX d) = -3 ∧ u.rem = 1) ∧
    (v = -(2 ^ 255) → m = 1 → val (t.getX d) = -(2 ^ 255) ∧ val (u.getX d) = -(2 ^ 255) ∧ u.rem = 0) ∧
    (v = -(2 ^ 255) → m = 3 → t.status.err = 5 ∧
      u.getX d = 0xD555555555555555555555555555555555555555555555555555555555555556 ∧ u.rem = 2) ∧
    (v = 2 ^ 255 - 1 → m = 2 ^ 32 - 1 → t.status.err = 5 ∧
      u.getX d = 0x0000000080000000800000008000000080000000800000008000000080000000 ∧ u.rem = 2147483647)

/-! ## What commands leave unchanged (10_state.md R22, R26; 60_exceptions.md R214, R215) -/

/-- DEC, DECW, PARSE, NEG, ADD, SUB and MULS change X[D], ERR and V only (and the port's fields not at all). -/
def Obligations.RegisterWritersFrame : Prop :=
  ∀ (d a b : XReg) (c : EBuf) (i : Instr) (s t : State),
    i ∈ [.dec d c, .decw d c, .parse d, .neg d a, .add d a b, .sub d a b, .muls d a] → exec i s = .next t →
    (∀ r, r ≠ d → t.getX r = s.getX r) ∧ t.e = s.e ∧ t.scalar = s.scalar ∧ t.rem = s.rem ∧ t.tin = s.tin ∧
    t.tout = s.tout ∧ t.status.cr = s.status.cr ∧ t.status.t = s.status.t ∧ t.port = s.port ∧ t.resp = s.resp

/-- DIVS changes X[D], REM, ERR and V only. -/
def Obligations.DivsFrame : Prop :=
  ∀ (d a : XReg) (s t : State), exec (.divs d a) s = .next t →
    (∀ r, r ≠ d → t.getX r = s.getX r) ∧ t.e = s.e ∧ t.scalar = s.scalar ∧ t.tin = s.tin ∧
    t.tout = s.tout ∧ t.status.cr = s.status.cr ∧ t.status.t = s.status.t ∧ t.port = s.port ∧ t.resp = s.resp

/-- ENC changes E[D], ERR and V only; MIN and MAX change E[D], CR, ERR and V only. -/
def Obligations.BufferWritersFrame : Prop :=
  ∀ (d b c : EBuf) (a : XReg) (i : Instr) (s t : State),
    i ∈ [.enc d a, .min d b c, .max d b c] → exec i s = .next t →
    (∀ r, r ≠ d → t.getE r = s.getE r) ∧ t.x = s.x ∧ t.scalar = s.scalar ∧ t.rem = s.rem ∧ t.tin = s.tin ∧
    t.tout = s.tout ∧ (i = .enc d a → t.status.cr = s.status.cr) ∧ t.status.t = s.status.t ∧
    t.port = s.port ∧ t.resp = s.resp

/-- FMT changes TOUT, ERR and V only. -/
def Obligations.FmtFrame : Prop :=
  ∀ (a : XReg) (s t : State), exec (.fmt a) s = .next t →
    t.x = s.x ∧ t.e = s.e ∧ t.scalar = s.scalar ∧ t.rem = s.rem ∧ t.tin = s.tin ∧
    t.status.cr = s.status.cr ∧ t.status.t = s.status.t ∧ t.port = s.port ∧ t.resp = s.resp

/-- CMP changes CR, ERR and V only; CEQ, CNE, CLT, CLE, CGT and CGE change CR, T, ERR and V only. -/
def Obligations.ComparisonsFrame : Prop :=
  ∀ (a b : EBuf) (i : Instr) (s t : State),
    i ∈ [.cmp a b, .ceq a b, .cne a b, .clt a b, .cle a b, .cgt a b, .cge a b] → exec i s = .next t →
    t.x = s.x ∧ t.e = s.e ∧ t.scalar = s.scalar ∧ t.rem = s.rem ∧ t.tin = s.tin ∧ t.tout = s.tout ∧
    (i = .cmp a b → t.status.t = s.status.t) ∧ t.port = s.port ∧ t.resp = s.resp

/-! ## The host's transactions (10_state.md R40, R41) -/

/-- R40: a transaction with an index out of its range is refused, and every other one completes (log 3). -/
def Obligations.RefusedIffOutOfRange : Prop :=
  ∀ (t : Txn) (s : State),
    (t.inRange = false → transact t s = .refused .noSuchTransaction) ∧
    (t.inRange = true → ∃ u, transact t s = .next u)

/-- R40, R41: a read gives the field it names and changes nothing (but the model's own `resp`: log 2). -/
def Obligations.ReadsGiveTheField : Prop :=
  ∀ s : State,
    (∀ (r : XReg) (j : Nat), j < 8 → transact (.rx r.index.toNat j) s =
      .next { s with resp := some (.word ((s.getX r).extractLsb' (32 * j) 32)) }) ∧
    (∀ b : EBuf, transact (.rel b.index.toNat) s = .next { s with resp := some (.byte (s.getE b).len) }) ∧
    (∀ (b : EBuf) (k : Nat) (h : k < 32), transact (.reb b.index.toNat k) s =
      .next { s with resp := some (.byte (s.getE b).data[k]) }) ∧
    transact .rs s = .next { s with resp := some (.word s.scalar) } ∧
    transact .rrem s = .next { s with resp := some (.word s.rem) } ∧
    transact .rtl s = .next { s with resp := some (.byte s.tin.len) } ∧
    (∀ (k : Nat) (h : k < 255), transact (.rtb k) s = .next { s with resp := some (.byte s.tin.data[k]) }) ∧
    transact .rol s = .next { s with resp := some (.byte s.tout.len) } ∧
    (∀ (k : Nat) (h : k < 78), transact (.rob k) s = .next { s with resp := some (.byte s.tout.data[k]) }) ∧
    transact .rst s = .next { s with resp := some (.word s.status.word) }

/-- R41: a write changes only the field it names: the named word of a Register takes the value, the other words and Registers
keep theirs; the same for a length, a data byte and S. -/
def Obligations.WritesChangeOneField : Prop :=
  ∀ s : State,
    (∀ (r : XReg) (j : Nat) (w : Word), j < 8 → ∃ v : Reg,
      transact (.wx r.index.toNat j w) s = .next { s with x := s.x.set r v } ∧
      ∀ j' < 8, v.extractLsb' (32 * j') 32 = if j' = j then w else (s.getX r).extractLsb' (32 * j') 32) ∧
    (∀ (b : EBuf) (v : Byte), transact (.wel b.index.toNat v) s =
      .next { s with e := s.e.set b { s.getE b with len := v } }) ∧
    (∀ (b : EBuf) (k : Nat) (v : Byte), k < 32 → ∃ buf : Buffer 32,
      transact (.web b.index.toNat k v) s = .next { s with e := s.e.set b buf } ∧ buf.len = (s.getE b).len ∧
      ∀ k' < 32, buf.data.toList[k']? = if k' = k then some v else (s.getE b).data.toList[k']?) ∧
    (∀ w : Word, transact (.ws w) s = .next { s with scalar := w }) ∧
    (∀ v : Byte, transact (.wtl v) s = .next { s with tin := { s.tin with len := v } }) ∧
    (∀ (k : Nat) (v : Byte), k < 255 → ∃ buf : Buffer 255,
      transact (.wtb k v) s = .next { s with tin := buf } ∧ buf.len = s.tin.len ∧
      ∀ k' < 255, buf.data.toList[k']? = if k' = k then some v else s.tin.data.toList[k']?)

/-- R41, I14: writes to REM, TOUT and STATUS change nothing (that they are transactions at all: log 4). -/
def Obligations.ReadOnlyWritesChangeNothing : Prop :=
  ∀ (s : State) (w : Word) (v : Byte),
    transact (.wrem w) s = .next s ∧ transact (.wst w) s = .next s ∧ transact (.wol v) s = .next s ∧
    ∀ k < 78, transact (.wob k v) s = .next s

/-- R91: the transactions of `WX Xi, v` load a whole Register, those of `WE Ei, bytes` an encoding and those of `WT text` a
text, leaving the data past the length, and everything else, as it was; that of `WS v` loads S, and `CMD` runs its command. -/
def Obligations.HostNotationRuns : Prop :=
  ∀ (s : State) (rest : List Event),
    (∀ (r : XReg) (v : Reg),
      (Host.Core.run core 8 { s with port := issue (noteWX r.index.toNat v) ++ rest } :
        Host.Outcome State Fault Refusal) = .next { s with x := s.x.set r v, port := rest, resp := none }) ∧
    (∀ (b : EBuf) (bs : List Byte), bs.length ≤ 32 → ∃ buf : Buffer 32,
      (Host.Core.run core (bs.length + 1) { s with port := issue (noteWE b.index.toNat bs) ++ rest } :
        Host.Outcome State Fault Refusal) = .next { s with e := s.e.set b buf, port := rest, resp := none } ∧
      buf.contents = bs ∧ ∀ k, bs.length ≤ k → buf.data.toList[k]? = (s.getE b).data.toList[k]?) ∧
    (∀ (text : List Byte) (ts : List Txn), noteWT text = some ts → ∃ t : State,
      (Host.Core.run core (text.length + 1) { s with port := issue ts ++ rest } :
        Host.Outcome State Fault Refusal) = .next t ∧
      t.tinText = text ∧ (∀ k, text.length ≤ k → t.tin.data.toList[k]? = s.tin.data.toList[k]?) ∧
      t = { s with tin := t.tin, port := rest, resp := none }) ∧
    (∀ v : Word, step { s with port := issue (noteWS v) ++ rest } =
      .next { s with scalar := v, port := rest, resp := none }) ∧
    (∀ i : Instr, step { s with port := issue (noteCMD i) ++ rest } = exec i { s with port := rest, resp := none })
end

