-- ==== Sys2Proof/Laws/Bits.lean ====
section
/-! SUPPORT. Words and bytes of a Register value as digits of its number, and the value and its encoding. -/

namespace Sys2Proof.Machine

/-! ## Words -/

theorem wordsToNat_append (l : List Word) (w : Word) :
    wordsToNat (l ++ [w]) = wordsToNat l + 2 ^ (32 * l.length) * w.toNat := by
  induction l with
  | nil => simp [wordsToNat]
  | cons a l ih =>
    simp only [List.cons_append, wordsToNat, ih, List.length_cons]
    rw [show 32 * (l.length + 1) = 32 + 32 * l.length by ring, pow_add]; ring

theorem wordsToNat_lt (l : List Word) : wordsToNat l < 2 ^ (32 * l.length) := by
  induction l with
  | nil => simp [wordsToNat]
  | cons a l ih =>
    have ha := a.isLt
    simp only [wordsToNat, List.length_cons]
    rw [show 32 * (l.length + 1) = 32 + 32 * l.length by ring, pow_add]
    nlinarith

@[simp] theorem length_words (x : Reg) : (words x).length = 8 := by simp [words]

theorem toNat_word (x : Reg) (j : Nat) : (word x j).toNat = x.toNat / 2 ^ (32 * j) % 2 ^ 32 := by
  simp [word, Nat.shiftRight_eq_div_pow]

theorem wordsToNat_low_words (x : Reg) (n : Nat) :
    wordsToNat ((List.range n).map (word x)) = x.toNat % 2 ^ (32 * n) := by
  induction n with
  | zero => simp [wordsToNat, Nat.mod_one]
  | succ n ih =>
    rw [List.range_succ, List.map_append, List.map_singleton, wordsToNat_append, ih, List.length_map,
      List.length_range, toNat_word, show 32 * (n + 1) = 32 * n + 32 by ring, pow_add, Nat.mod_mul]

/-- The words of a Register value are its digits. -/
@[simp] theorem wordsToNat_words (x : Reg) : wordsToNat (words x) = x.toNat := by
  rw [words, wordsToNat_low_words]; exact Nat.mod_eq_of_lt x.isLt

@[simp] theorem ofWords_words (x : Reg) : ofWords (words x) = x := by
  simp [ofWords]

/-- Two word lists of one length that stand for one number are the same. -/
theorem wordsToNat_injective {l m : List Word} (hl : l.length = m.length) (h : wordsToNat l = wordsToNat m) :
    l = m := by
  induction l generalizing m with
  | nil => cases m <;> simp_all
  | cons a l ih =>
    cases m with
    | nil => simp at hl
    | cons b m =>
      have ha := a.isLt
      have hb := b.isLt
      simp only [wordsToNat] at h
      have h1 : a.toNat = b.toNat := by omega
      have h2 : wordsToNat l = wordsToNat m := by omega
      rw [BitVec.eq_of_toNat_eq h1, ih (by simpa using hl) h2]

/-- Eight words put together and taken apart again are the same words. -/
theorem words_ofWords {l : List Word} (h : l.length = 8) : words (ofWords l) = l := by
  apply wordsToNat_injective (by simp [h])
  have := wordsToNat_lt l
  rw [h] at this
  simp only [wordsToNat_words, ofWords, BitVec.toNat_ofNat]
  exact Nat.mod_eq_of_lt this

theorem words_getElem? (x : Reg) (j : Nat) (h : j < 8) : (words x)[j]? = some (word x j) := by
  simp [words, h]

theorem word_ofWords {l : List Word} (h : l.length = 8) (j : Nat) (hj : j < 8) :
    word (ofWords l) j = l.getD j 0 := by
  have := words_getElem? (ofWords l) j hj
  rw [words_ofWords h] at this
  simp [this]

/-! ## Bytes -/

theorem bytesToNat_append (l : List Byte) (b : Byte) :
    bytesToNat (l ++ [b]) = bytesToNat l + 2 ^ (8 * l.length) * b.toNat := by
  induction l with
  | nil => simp [bytesToNat]
  | cons a l ih =>
    simp only [List.cons_append, bytesToNat, ih, List.length_cons]
    rw [show 8 * (l.length + 1) = 8 + 8 * l.length by ring, pow_add]; ring

theorem bytesToNat_lt (l : List Byte) : bytesToNat l < 2 ^ (8 * l.length) := by
  induction l with
  | nil => simp [bytesToNat]
  | cons a l ih =>
    have ha := a.isLt
    simp only [bytesToNat, List.length_cons]
    rw [show 8 * (l.length + 1) = 8 + 8 * l.length by ring, pow_add]
    nlinarith

@[simp] theorem length_bytes (x : Reg) (n : Nat) : (bytes x n).length = n := by simp [bytes]

theorem toNat_byte (x : Reg) (k : Nat) : (byte x k).toNat = x.toNat / 2 ^ (8 * k) % 2 ^ 8 := by
  simp [byte, Nat.shiftRight_eq_div_pow]

/-- The low bytes of a Register value are its low digits. -/
theorem bytesToNat_bytes (x : Reg) (n : Nat) : bytesToNat (bytes x n) = x.toNat % 2 ^ (8 * n) := by
  induction n with
  | zero => simp [bytes, bytesToNat, Nat.mod_one]
  | succ n ih =>
    rw [bytes, List.range_succ, List.map_append, List.map_singleton, bytesToNat_append, ← bytes, ih, length_bytes,
      toNat_byte, show 8 * (n + 1) = 8 * n + 8 by ring, pow_add, Nat.mod_mul]

theorem bytes_getElem? (x : Reg) (n k : Nat) (h : k < n) : (bytes x n)[k]? = some (byte x k) := by
  simp [bytes, h]

/-- Two byte lists of one length that stand for one number are the same. -/
theorem bytesToNat_injective {l m : List Byte} (hl : l.length = m.length) (h : bytesToNat l = bytesToNat m) :
    l = m := by
  induction l generalizing m with
  | nil => cases m <;> simp_all
  | cons a l ih =>
    cases m with
    | nil => simp at hl
    | cons b m =>
      have ha := a.isLt
      have hb := b.isLt
      simp only [bytesToNat] at h
      have h1 : a.toNat = b.toNat := by omega
      have h2 : bytesToNat l = bytesToNat m := by omega
      rw [BitVec.eq_of_toNat_eq h1, ih (by simpa using hl) h2]

/-- Thirty-two bytes put together and taken apart again are the same bytes. -/
theorem bytes_ofBytes {l : List Byte} (h : l.length = 32) : bytes (ofBytes l) 32 = l := by
  apply bytesToNat_injective (by simp [h])
  have := bytesToNat_lt l
  rw [h] at this
  rw [bytesToNat_bytes]
  simp only [ofBytes, BitVec.toNat_ofNat]
  rw [Nat.mod_mod_of_dvd _ (dvd_refl _)]
  exact Nat.mod_eq_of_lt this

/-! ## Values -/

/-- The representable range in numbers. -/
theorem inRange_iff (n : Int) : InRange n ↔ -(2 : Int) ^ 255 ≤ n ∧ n ≤ (2 : Int) ^ 255 - 1 := by
  simp only [InRange, Config.minV, Config.maxV]
  constructor <;> rintro ⟨h1, h2⟩ <;> constructor <;> omega

theorem inRange_val (x : Reg) : InRange (val x) := by
  have h1 := BitVec.le_toInt (x := x)
  have h2 := BitVec.toInt_lt (x := x)
  constructor
  · simpa [val, Config.minV] using h1
  · have : x.toInt < 2 ^ 255 := by simpa using h2
    simp only [val, Config.maxV]; omega

@[simp] theorem enc256_val (x : Reg) : enc256 (val x) = x := by simp [enc256, val]

/-- A number in the range survives its encoding. -/
theorem val_enc256 {n : Int} (h : InRange n) : val (enc256 n) = n := by
  obtain ⟨h1, h2⟩ := h
  simp only [Config.minV, Config.maxV] at h1 h2
  rw [val, enc256, BitVec.toInt_ofInt]
  rw [Int.bmod_def]
  omega

theorem toNat_enc256_natCast (n : Nat) : (enc256 (n : Int)).toNat = n % 2 ^ 256 := by
  simp [enc256]

/-- The sign is the sign of the value. -/
theorem sign_iff_val_neg (x : Reg) : sign x = true ↔ val x < 0 := by
  simp [sign, val, BitVec.msb_eq_toInt]

end Sys2Proof.Machine
end

