-- ==== Sys2Proof/Laws/State.lean ====
section
/-! SUPPORT. One lemma per field per update of State: what each named operation leaves in each field. -/

namespace Sys2Proof.Machine

/-! ## State.setX -/

@[simp] theorem State.setX_x (s : State) (i : XReg) (v : Reg) : (s.setX i v).x = s.x.set i v := rfl
@[simp] theorem State.setX_e (s : State) (i : XReg) (v : Reg) : (s.setX i v).e = s.e := rfl
@[simp] theorem State.setX_scalar (s : State) (i : XReg) (v : Reg) : (s.setX i v).scalar = s.scalar := rfl
@[simp] theorem State.setX_rem (s : State) (i : XReg) (v : Reg) : (s.setX i v).rem = s.rem := rfl
@[simp] theorem State.setX_tin (s : State) (i : XReg) (v : Reg) : (s.setX i v).tin = s.tin := rfl
@[simp] theorem State.setX_tout (s : State) (i : XReg) (v : Reg) : (s.setX i v).tout = s.tout := rfl
@[simp] theorem State.setX_status (s : State) (i : XReg) (v : Reg) : (s.setX i v).status = s.status := rfl
@[simp] theorem State.setX_port (s : State) (i : XReg) (v : Reg) : (s.setX i v).port = s.port := rfl
@[simp] theorem State.setX_resp (s : State) (i : XReg) (v : Reg) : (s.setX i v).resp = s.resp := rfl

/-! ## State.setE -/

@[simp] theorem State.setE_x (s : State) (i : EBuf) (b : Buffer Config.maxLen) : (s.setE i b).x = s.x := rfl
@[simp] theorem State.setE_e (s : State) (i : EBuf) (b : Buffer Config.maxLen) : (s.setE i b).e = s.e.set i b := rfl
@[simp] theorem State.setE_scalar (s : State) (i : EBuf) (b : Buffer Config.maxLen) : (s.setE i b).scalar = s.scalar := rfl
@[simp] theorem State.setE_rem (s : State) (i : EBuf) (b : Buffer Config.maxLen) : (s.setE i b).rem = s.rem := rfl
@[simp] theorem State.setE_tin (s : State) (i : EBuf) (b : Buffer Config.maxLen) : (s.setE i b).tin = s.tin := rfl
@[simp] theorem State.setE_tout (s : State) (i : EBuf) (b : Buffer Config.maxLen) : (s.setE i b).tout = s.tout := rfl
@[simp] theorem State.setE_status (s : State) (i : EBuf) (b : Buffer Config.maxLen) : (s.setE i b).status = s.status := rfl
@[simp] theorem State.setE_port (s : State) (i : EBuf) (b : Buffer Config.maxLen) : (s.setE i b).port = s.port := rfl
@[simp] theorem State.setE_resp (s : State) (i : EBuf) (b : Buffer Config.maxLen) : (s.setE i b).resp = s.resp := rfl

/-! ## State.setRem -/

@[simp] theorem State.setRem_x (s : State) (r : Word) : (s.setRem r).x = s.x := rfl
@[simp] theorem State.setRem_e (s : State) (r : Word) : (s.setRem r).e = s.e := rfl
@[simp] theorem State.setRem_scalar (s : State) (r : Word) : (s.setRem r).scalar = s.scalar := rfl
@[simp] theorem State.setRem_rem (s : State) (r : Word) : (s.setRem r).rem = r := rfl
@[simp] theorem State.setRem_tin (s : State) (r : Word) : (s.setRem r).tin = s.tin := rfl
@[simp] theorem State.setRem_tout (s : State) (r : Word) : (s.setRem r).tout = s.tout := rfl
@[simp] theorem State.setRem_status (s : State) (r : Word) : (s.setRem r).status = s.status := rfl
@[simp] theorem State.setRem_port (s : State) (r : Word) : (s.setRem r).port = s.port := rfl
@[simp] theorem State.setRem_resp (s : State) (r : Word) : (s.setRem r).resp = s.resp := rfl

/-! ## State.writeTout -/

@[simp] theorem State.writeTout_x (s : State) (bs : List Byte) : (s.writeTout bs).x = s.x := rfl
@[simp] theorem State.writeTout_e (s : State) (bs : List Byte) : (s.writeTout bs).e = s.e := rfl
@[simp] theorem State.writeTout_scalar (s : State) (bs : List Byte) : (s.writeTout bs).scalar = s.scalar := rfl
@[simp] theorem State.writeTout_rem (s : State) (bs : List Byte) : (s.writeTout bs).rem = s.rem := rfl
@[simp] theorem State.writeTout_tin (s : State) (bs : List Byte) : (s.writeTout bs).tin = s.tin := rfl
@[simp] theorem State.writeTout_tout (s : State) (bs : List Byte) : (s.writeTout bs).tout = .ofBytes _ bs := rfl
@[simp] theorem State.writeTout_status (s : State) (bs : List Byte) : (s.writeTout bs).status = s.status := rfl
@[simp] theorem State.writeTout_port (s : State) (bs : List Byte) : (s.writeTout bs).port = s.port := rfl
@[simp] theorem State.writeTout_resp (s : State) (bs : List Byte) : (s.writeTout bs).resp = s.resp := rfl

/-! ## State.setCR -/

@[simp] theorem State.setCR_x (s : State) (c : Ordering) : (s.setCR c).x = s.x := rfl
@[simp] theorem State.setCR_e (s : State) (c : Ordering) : (s.setCR c).e = s.e := rfl
@[simp] theorem State.setCR_scalar (s : State) (c : Ordering) : (s.setCR c).scalar = s.scalar := rfl
@[simp] theorem State.setCR_rem (s : State) (c : Ordering) : (s.setCR c).rem = s.rem := rfl
@[simp] theorem State.setCR_tin (s : State) (c : Ordering) : (s.setCR c).tin = s.tin := rfl
@[simp] theorem State.setCR_tout (s : State) (c : Ordering) : (s.setCR c).tout = s.tout := rfl
@[simp] theorem State.setCR_status (s : State) (c : Ordering) : (s.setCR c).status = { s.status with cr := crOf c } := rfl
@[simp] theorem State.setCR_port (s : State) (c : Ordering) : (s.setCR c).port = s.port := rfl
@[simp] theorem State.setCR_resp (s : State) (c : Ordering) : (s.setCR c).resp = s.resp := rfl

/-! ## State.setT -/

@[simp] theorem State.setT_x (s : State) (b : Bool) : (s.setT b).x = s.x := rfl
@[simp] theorem State.setT_e (s : State) (b : Bool) : (s.setT b).e = s.e := rfl
@[simp] theorem State.setT_scalar (s : State) (b : Bool) : (s.setT b).scalar = s.scalar := rfl
@[simp] theorem State.setT_rem (s : State) (b : Bool) : (s.setT b).rem = s.rem := rfl
@[simp] theorem State.setT_tin (s : State) (b : Bool) : (s.setT b).tin = s.tin := rfl
@[simp] theorem State.setT_tout (s : State) (b : Bool) : (s.setT b).tout = s.tout := rfl
@[simp] theorem State.setT_status (s : State) (b : Bool) : (s.setT b).status = { s.status with t := b } := rfl
@[simp] theorem State.setT_port (s : State) (b : Bool) : (s.setT b).port = s.port := rfl
@[simp] theorem State.setT_resp (s : State) (b : Bool) : (s.setT b).resp = s.resp := rfl

/-! ## State.fail -/

@[simp] theorem State.fail_x (s : State) (e : Err) : (s.fail e).x = s.x := rfl
@[simp] theorem State.fail_e (s : State) (e : Err) : (s.fail e).e = s.e := rfl
@[simp] theorem State.fail_scalar (s : State) (e : Err) : (s.fail e).scalar = s.scalar := rfl
@[simp] theorem State.fail_rem (s : State) (e : Err) : (s.fail e).rem = s.rem := rfl
@[simp] theorem State.fail_tin (s : State) (e : Err) : (s.fail e).tin = s.tin := rfl
@[simp] theorem State.fail_tout (s : State) (e : Err) : (s.fail e).tout = s.tout := rfl
@[simp] theorem State.fail_status (s : State) (e : Err) : (s.fail e).status = { s.status with err := e.code, v := e.vFlag } := rfl
@[simp] theorem State.fail_port (s : State) (e : Err) : (s.fail e).port = s.port := rfl
@[simp] theorem State.fail_resp (s : State) (e : Err) : (s.fail e).resp = s.resp := rfl

/-! ## State.succeed -/

@[simp] theorem State.succeed_x (s : State) : s.succeed.x = s.x := rfl
@[simp] theorem State.succeed_e (s : State) : s.succeed.e = s.e := rfl
@[simp] theorem State.succeed_scalar (s : State) : s.succeed.scalar = s.scalar := rfl
@[simp] theorem State.succeed_rem (s : State) : s.succeed.rem = s.rem := rfl
@[simp] theorem State.succeed_tin (s : State) : s.succeed.tin = s.tin := rfl
@[simp] theorem State.succeed_tout (s : State) : s.succeed.tout = s.tout := rfl
@[simp] theorem State.succeed_status (s : State) : s.succeed.status = { s.status with err := 0, v := false } := rfl
@[simp] theorem State.succeed_port (s : State) : s.succeed.port = s.port := rfl
@[simp] theorem State.succeed_resp (s : State) : s.succeed.resp = s.resp := rfl

/-! ## State.accept -/

@[simp] theorem State.accept_x (s : State) (rest : List Event) : (s.accept rest).x = s.x := rfl
@[simp] theorem State.accept_e (s : State) (rest : List Event) : (s.accept rest).e = s.e := rfl
@[simp] theorem State.accept_scalar (s : State) (rest : List Event) : (s.accept rest).scalar = s.scalar := rfl
@[simp] theorem State.accept_rem (s : State) (rest : List Event) : (s.accept rest).rem = s.rem := rfl
@[simp] theorem State.accept_tin (s : State) (rest : List Event) : (s.accept rest).tin = s.tin := rfl
@[simp] theorem State.accept_tout (s : State) (rest : List Event) : (s.accept rest).tout = s.tout := rfl
@[simp] theorem State.accept_status (s : State) (rest : List Event) : (s.accept rest).status = s.status := rfl
@[simp] theorem State.accept_port (s : State) (rest : List Event) : (s.accept rest).port = rest := rfl
@[simp] theorem State.accept_resp (s : State) (rest : List Event) : (s.accept rest).resp = none := rfl

/-! ## State.presentCommand -/

@[simp] theorem State.presentCommand_x (s : State) (w : Word) : (s.presentCommand w).x = s.x := rfl
@[simp] theorem State.presentCommand_e (s : State) (w : Word) : (s.presentCommand w).e = s.e := rfl
@[simp] theorem State.presentCommand_scalar (s : State) (w : Word) : (s.presentCommand w).scalar = s.scalar := rfl
@[simp] theorem State.presentCommand_rem (s : State) (w : Word) : (s.presentCommand w).rem = s.rem := rfl
@[simp] theorem State.presentCommand_tin (s : State) (w : Word) : (s.presentCommand w).tin = s.tin := rfl
@[simp] theorem State.presentCommand_tout (s : State) (w : Word) : (s.presentCommand w).tout = s.tout := rfl
@[simp] theorem State.presentCommand_status (s : State) (w : Word) : (s.presentCommand w).status = s.status := rfl
@[simp] theorem State.presentCommand_port (s : State) (w : Word) : (s.presentCommand w).port = .txn (.wcmd w) :: s.port := rfl
@[simp] theorem State.presentCommand_resp (s : State) (w : Word) : (s.presentCommand w).resp = s.resp := rfl

/-! ## A reset keeps the port only -/

theorem State.resetNow_eq (s : State) : s.resetNow = { State.reset with port := s.port } := rfl

end Sys2Proof.Machine
end

