-- ==== Sys2Proof/Laws/Ops.lean ====
section
/-! SUPPORT. The shared operations: reading back a written Register or buffer, the two ends of a command, and what a
meaning can answer. -/

namespace Sys2Proof.Machine

/-! ## Registers and buffers -/

@[simp] theorem XRegs.get_set_self (x : XRegs) (i : XReg) (v : Reg) : (x.set i v).get i = v := by
  cases i <;> rfl

theorem XRegs.get_set_of_ne (x : XRegs) {i j : XReg} (v : Reg) (h : j ≠ i) : (x.set i v).get j = x.get j := by
  cases i <;> cases j <;> first | rfl | exact absurd rfl h

@[simp] theorem EBufs.get_set_self (e : EBufs) (i : EBuf) (b : Buffer Config.maxLen) : (e.set i b).get i = b := by
  cases i <;> rfl

theorem EBufs.get_set_of_ne (e : EBufs) {i j : EBuf} (b : Buffer Config.maxLen) (h : j ≠ i) :
    (e.set i b).get j = e.get j := by
  cases i <;> cases j <;> first | rfl | exact absurd rfl h

@[simp] theorem State.getX_setX_self (s : State) (i : XReg) (v : Reg) : (s.setX i v).getX i = v :=
  XRegs.get_set_self _ _ _

theorem State.getX_setX_of_ne (s : State) {i j : XReg} (v : Reg) (h : j ≠ i) : (s.setX i v).getX j = s.getX j :=
  XRegs.get_set_of_ne _ _ h

@[simp] theorem State.getE_setE_self (s : State) (i : EBuf) (b : Buffer Config.maxLen) : (s.setE i b).getE i = b :=
  EBufs.get_set_self _ _ _

theorem State.getE_setE_of_ne (s : State) {i j : EBuf} (b : Buffer Config.maxLen) (h : j ≠ i) :
    (s.setE i b).getE j = s.getE j :=
  EBufs.get_set_of_ne _ _ h

/-- A Register's value depends on the Registers only. -/
theorem State.getX_congr {s t : State} (h : t.x = s.x) (i : XReg) : t.getX i = s.getX i := by
  simp [State.getX, h]

/-- A buffer depends on the buffers only. -/
theorem State.getE_congr {s t : State} (h : t.e = s.e) (i : EBuf) : t.getE i = s.getE i := by
  simp [State.getE, h]

/-! ## Buffers written whole -/

@[simp] theorem length_fill_toList (n : Nat) (bs : List Byte) : (fill n bs).toList.length = n := by
  simp [fill]

/-- A filled buffer holds the list, then zeros. -/
theorem fill_getElem? (n : Nat) (bs : List Byte) (k : Nat) (h : k < n) :
    (fill n bs).toList[k]? = some (bs.getD k 0) := by
  simp [fill, h]

/-- The bytes within the length of a buffer written whole are the list itself. -/
theorem Buffer.contents_ofBytes {n : Nat} {bs : List Byte} (hn : bs.length ≤ n) (h8 : bs.length < 256) :
    (Buffer.ofBytes n bs).contents = bs := by
  apply List.ext_getElem?
  intro k
  have hl : (BitVec.ofNat 8 bs.length).toNat = bs.length := by simp; omega
  simp only [Buffer.contents, Buffer.ofBytes, hl, List.getElem?_take]
  split
  · next hk => rw [fill_getElem? _ _ _ (by omega)]; simp [hk]
  · next hk => simp; omega

/-- The length of the bytes within the length, when the length is at most the size. -/
theorem Buffer.length_contents {n : Nat} (b : Buffer n) (h : b.len.toNat ≤ n) :
    b.contents.length = b.len.toNat := by
  simp [Buffer.contents, h]

/-! ## The end of a command -/

@[simp] theorem commit_error (s : State) (e : Err) : commit s (.error e) = .next (s.fail e) := rfl

@[simp] theorem commit_ok (s t : State) : commit s (.ok t) = .next t.succeed := rfl

/-- All that `commit` can answer: the error taken on the state before, or the success of the state written. -/
theorem commit_cases {s t : State} {r : Except Err State} (h : commit s r = .next t) :
    (∃ e, r = .error e ∧ t = s.fail e) ∨ (∃ u, r = .ok u ∧ t = u.succeed) := by
  cases r with
  | error e => exact .inl ⟨e, rfl, by simpa using h.symm⟩
  | ok u => exact .inr ⟨u, rfl, by simpa using h.symm⟩

/-- A command always completes. -/
theorem commit_next (s : State) (r : Except Err State) : ∃ t, commit s r = .next t := by
  cases r <;> exact ⟨_, rfl⟩

/-- An error's code is one of 1 to 6, and V is set by Overflow alone. -/
theorem Err.code_spec (e : Err) : 1 ≤ e.code.toNat ∧ e.code.toNat ≤ 6 ∧ (e.vFlag = true ↔ e.code = 5) := by
  cases e <;> decide

end Sys2Proof.Machine
end

