-- ==== Sys2Proof/Laws/Arith.lean ====
section
/-! SUPPORT. What each word loop computes, as a number: one lemma per loop. -/

namespace Sys2Proof.Machine

/-! ## Lengths -/

@[simp] theorem length_negWords (l : List Word) (c : Nat) : (negWords l c).length = l.length := by
  induction l generalizing c with
  | nil => rfl
  | cons w ws ih => simp [negWords, ih]

theorem length_addWords {l m : List Word} (h : l.length = m.length) (c : Nat) :
    (addWords l m c).length = l.length := by
  induction l generalizing m c with
  | nil => cases m <;> rfl
  | cons x xs ih =>
    cases m with
    | nil => simp at h
    | cons y ys => simp [addWords, ih (by simpa using h)]

theorem length_subWords {l m : List Word} (h : l.length = m.length) (c : Nat) :
    (subWords l m c).length = l.length := by
  induction l generalizing m c with
  | nil => cases m <;> rfl
  | cons x xs ih =>
    cases m with
    | nil => simp at h
    | cons y ys => simp [subWords, ih (by simpa using h)]

/-! ## Values -/

/-- Complement plus carry: the words of `2^n - 1 - l + c`, the last carry dropped. -/
theorem wordsToNat_negWords (l : List Word) (c : Nat) :
    (wordsToNat (negWords l c) : Int) ≡ c - 1 - wordsToNat l [ZMOD 2 ^ (32 * l.length)] := by
  induction l generalizing c with
  | nil => simp [negWords, wordsToNat, Int.modEq_one]
  | cons w ws ih =>
    have h := ih (((~~~w).toNat + c) / 2 ^ 32)
    rw [Int.modEq_iff_dvd] at h ⊢
    obtain ⟨k, hk⟩ := h
    refine ⟨k, ?_⟩
    have hw : (~~~w).toNat = 2 ^ 32 - 1 - w.toNat := by simp
    have := w.isLt
    simp only [negWords, wordsToNat, List.length_cons, BitVec.toNat_ofNat]
    rw [show 32 * (ws.length + 1) = 32 + 32 * ws.length by ring, pow_add]
    rw [mul_assoc, ← hk]
    push_cast
    omega

/-- The sum with carry, the last carry dropped. -/
theorem wordsToNat_addWords {l m : List Word} (h : l.length = m.length) (c : Nat) :
    (wordsToNat (addWords l m c) : Int) ≡ wordsToNat l + wordsToNat m + c [ZMOD 2 ^ (32 * l.length)] := by
  induction l generalizing m c with
  | nil => cases m <;> simp_all [addWords, wordsToNat, Int.modEq_one]
  | cons x xs ih =>
    cases m with
    | nil => simp at h
    | cons y ys =>
      have h' := ih (m := ys) (by simpa using h) ((x.toNat + y.toNat + c) / 2 ^ 32)
      rw [Int.modEq_iff_dvd] at h' ⊢
      obtain ⟨k, hk⟩ := h'
      refine ⟨k, ?_⟩
      simp only [addWords, wordsToNat, List.length_cons, BitVec.toNat_ofNat]
      rw [show 32 * (xs.length + 1) = 32 + 32 * xs.length by ring, pow_add, mul_assoc, ← hk]
      push_cast
      omega

/-- The difference with borrow, the last borrow dropped. -/
theorem wordsToNat_subWords {l m : List Word} (h : l.length = m.length) (c : Nat) (hc : c ≤ 1) :
    (wordsToNat (subWords l m c) : Int) ≡ wordsToNat l - wordsToNat m - c [ZMOD 2 ^ (32 * l.length)] := by
  induction l generalizing m c with
  | nil => cases m <;> simp_all [subWords, wordsToNat, Int.modEq_one]
  | cons x xs ih =>
    cases m with
    | nil => simp at h
    | cons y ys =>
      have h' := ih (m := ys) (by simpa using h) (if (x.toNat : Int) - y.toNat - c < 0 then 1 else 0) (by split <;> omega)
      rw [Int.modEq_iff_dvd] at h' ⊢
      obtain ⟨k, hk⟩ := h'
      refine ⟨k, ?_⟩
      have hx := x.isLt
      have hy := y.isLt
      simp only [subWords, wordsToNat, List.length_cons, BitVec.toNat_ofInt]
      rw [show 32 * (xs.length + 1) = 32 + 32 * xs.length by ring, pow_add, mul_assoc, ← hk]
      push_cast
      split <;> omega

/-- The product with carry, exact: the last carry is the high part. -/
theorem mulWords_spec (m : Nat) (l : List Word) (c : Nat) :
    (mulWords m l c).1.length = l.length ∧
      (mulWords m l c).2 * 2 ^ (32 * l.length) + wordsToNat (mulWords m l c).1 = wordsToNat l * m + c := by
  induction l generalizing c with
  | nil => simp [mulWords, wordsToNat]
  | cons w ws ih =>
    obtain ⟨h1, h2⟩ := ih ((w.toNat * m + c) / 2 ^ 32)
    refine ⟨by simpa [mulWords] using h1, ?_⟩
    simp only [mulWords, wordsToNat, List.length_cons, BitVec.toNat_ofNat, Nat.mod_mod]
    rw [show 32 * (ws.length + 1) = 32 + 32 * ws.length by ring, pow_add]
    have h3 := Nat.div_add_mod (w.toNat * m + c) (2 ^ 32)
    generalize (2 : Nat) ^ 32 = B at *
    generalize (w.toNat * m + c) / B = q at *
    have h4 : B * ((mulWords m ws q).2 * 2 ^ (32 * ws.length) + wordsToNat (mulWords m ws q).1) =
        B * (wordsToNat ws * m + q) := by rw [h2]
    linarith [h3, h4]

/-- A quotient digit of a long division is a digit. -/
theorem quotient_digit_lt {r m w B : Nat} (hr : r < m) (hw : w < B) : (r * B + w) / m < B := by
  rw [Nat.div_lt_iff_lt_mul (by omega)]
  calc r * B + w < (r + 1) * B := by rw [Nat.add_mul]; omega
    _ ≤ m * B := Nat.mul_le_mul_right _ hr
    _ = B * m := Nat.mul_comm _ _

/-- One digit of a long division, in numbers. -/
theorem division_step {P B m q rr r w A R W : Nat} (h : m * q + rr = r * B + w) (h' : A * m + R = rr * P + W) :
    (A + P * q) * m + R = r * (P * B) + (W + P * w) := by
  have h5 : P * (m * q + rr) = P * (r * B + w) := by rw [h]
  linarith [h5, h']

/-- The long division, exact: `rem * 2^n + l`, most significant word first, is the quotient times `m` plus the remainder. -/
theorem divWords_spec {m : Nat} (hm : 0 < m) (l : List Word) (r : Nat) (hr : r < m) :
    (divWords m l r).1.length = l.length ∧ (divWords m l r).2 < m ∧
      wordsToNat (divWords m l r).1.reverse * m + (divWords m l r).2 = r * 2 ^ (32 * l.length) + wordsToNat l.reverse := by
  induction l generalizing r with
  | nil => simp [divWords, wordsToNat, hr]
  | cons w ws ih =>
    have hw := w.isLt
    obtain ⟨h1, h2, h3⟩ := ih ((r * 2 ^ 32 + w.toNat) % m) (Nat.mod_lt _ hm)
    rw [divWords]
    refine ⟨by simp only [List.length_cons, h1], h2, ?_⟩
    have hq := quotient_digit_lt hr hw
    simp only [List.reverse_cons, wordsToNat_append, List.length_reverse, h1, BitVec.toNat_ofNat,
      Nat.mod_eq_of_lt hq, List.length_cons]
    rw [show 32 * (ws.length + 1) = 32 * ws.length + 32 by ring, pow_add]
    exact division_step (Nat.div_add_mod _ _) h3

end Sys2Proof.Machine
end

