-- ==== Sys2Proof/Laws/Operands.lean ====
section
/-! SUPPORT. What reading an encoded buffer, or two of them, can answer. -/

namespace Sys2Proof.Machine

theorem readEnc_of_le {s : State} {i : EBuf} (h : (s.getE i).len.toNat ≤ Config.maxLen) :
    readEnc s i = .ok (s.getE i).contents := by
  simp [readEnc, Nat.not_lt.mpr h]

theorem readEnc_of_lt {s : State} {i : EBuf} (h : Config.maxLen < (s.getE i).len.toNat) :
    readEnc s i = .error .tooLong := by
  simp [readEnc, h]

/-- All that `readEnc` can answer. -/
theorem readEnc_cases (s : State) (i : EBuf) :
    (Config.maxLen < (s.getE i).len.toNat ∧ readEnc s i = .error .tooLong) ∨
      ((s.getE i).len.toNat ≤ Config.maxLen ∧ readEnc s i = .ok (s.getE i).contents) := by
  rcases Nat.lt_or_ge Config.maxLen (s.getE i).len.toNat with h | h
  · exact .inl ⟨h, readEnc_of_lt h⟩
  · exact .inr ⟨h, readEnc_of_le h⟩

/-- All that `readPair` can answer: TooLong if either length exceeds 32, else the bytes of both. -/
theorem readPair_cases (s : State) (a b : EBuf) :
    ((Config.maxLen < (s.getE a).len.toNat ∨ Config.maxLen < (s.getE b).len.toNat) ∧
        readPair s a b = .error .tooLong) ∨
      ((s.getE a).len.toNat ≤ Config.maxLen ∧ (s.getE b).len.toNat ≤ Config.maxLen ∧
        readPair s a b = .ok ((s.getE a).contents, (s.getE b).contents)) := by
  rcases readEnc_cases s a with ⟨ha, ea⟩ | ⟨ha, ea⟩
  · exact .inl ⟨.inl ha, by simp [readPair, ea]⟩
  · rcases readEnc_cases s b with ⟨hb, eb⟩ | ⟨hb, eb⟩
    · exact .inl ⟨.inr hb, by simp [readPair, ea, eb]⟩
    · exact .inr ⟨ha, hb, by simp [readPair, ea, eb]⟩

end Sys2Proof.Machine
end

