-- ==== Sys2Proof/Laws/Exec.lean ====
section
/-! SUPPORT. What a command can do, said once: every command is the `commit` of its error or of the state it writes, with the
errors of its row of 60_exceptions.md R212 and the destinations of 10_state.md R22 and R26. -/

namespace Sys2Proof.Machine

/-- `u` is `s` with the destinations of `i` written and nothing else. -/
def Wrote (i : Instr) (s u : State) : Prop :=
  match i with
  | .dec d _ | .decw d _ | .parse d | .neg d _ | .add d _ _ | .sub d _ _ | .muls d _ => ∃ v, u = s.setX d v
  | .enc d a => u = s.writeEnc d (s.getX a)
  | .fmt a => u = s.writeTout (formatGroups (s.getX a))
  | .cmp a b => u = s.setCR (cmpEnc (s.getE a).contents (s.getE b).contents)
  | .ceq a b | .cne a b | .clt a b | .cle a b | .cgt a b | .cge a b =>
    ∃ p : Bool, u = (s.setCR (cmpEnc (s.getE a).contents (s.getE b).contents)).setT p
  | .min d a b | .max d a b =>
    ∃ bs, (bs = (s.getE a).contents ∨ bs = (s.getE b).contents) ∧ bs.length ≤ 32 ∧
      u = (s.writeBuf d bs).setCR (cmpEnc (s.getE a).contents (s.getE b).contents)
  | .divs d a =>
    s.scalar ≠ 0 ∧ ∃ v, u = (s.setX d v).setRem (BitVec.ofNat 32 (magDivMod (s.getX a) s.scalar).2)

/-- The result of a command is an error of its row, or a state with its destinations written. -/
def Result (i : Instr) (s : State) (r : Except Err State) : Prop :=
  (∃ e, r = .error e ∧ e.code ∈ codesOf i) ∨ ∃ u, r = .ok u ∧ Wrote i s u

theorem applyChunk_error {neg : Bool} {r : Int} {acc p : Nat} {e : Err} (h : applyChunk neg r acc p = .error e) :
    e = .overflow := by
  unfold applyChunk at h
  simp only at h
  repeat' split at h
  all_goals simp_all

theorem parseDigits_error {neg : Bool} {ds : List Byte} {r : Int} {acc p n : Nat} {e : Err}
    (h : parseDigits neg ds r acc p n = .error e) : e = .overflow := by
  induction ds generalizing r acc p n with
  | nil =>
    unfold parseDigits at h
    split at h
    · simp at h
    · exact applyChunk_error h
  | cons c cs ih =>
    unfold parseDigits at h
    simp only at h
    split at h
    · split at h
      · next h' => cases h; exact applyChunk_error h'
      · exact ih h
    · exact ih h

/-- PARSE raises InvalidSyntax and Overflow only. -/
theorem parseText_error {t : List Byte} {e : Err} (h : parseText t = .error e) : e = .invalidSyntax ∨ e = .overflow := by
  unfold parseText at h
  split at h
  · next h' =>
    cases h
    unfold splitSign at h'
    simp only at h'
    repeat' split at h'
    all_goals simp_all
  · unfold chunkParse at h
    split at h
    · next h' => cases h; exact .inr (parseDigits_error h')
    · simp at h

theorem comparePredicate_result (i : Instr) (p : Ordering → Bool) (a b : EBuf) (s : State)
    (hc : (2 : BitVec 3) ∈ codesOf i)
    (hw : ∀ q : Bool, Wrote i s ((s.setCR (cmpEnc (s.getE a).contents (s.getE b).contents)).setT q)) :
    ∃ r, comparePredicate p a b s = commit s r ∧ Result i s r := by
  refine ⟨_, rfl, ?_⟩
  rcases readPair_cases s a b with ⟨_, e⟩ | ⟨_, _, e⟩ <;> rw [e]
  · exact .inl ⟨_, rfl, hc⟩
  · exact .inr ⟨_, rfl, hw _⟩

theorem compareSelect_result (i : Instr) (p : Ordering) (d a b : EBuf) (s : State) (hc : (2 : BitVec 3) ∈ codesOf i)
    (hw : ∀ bs, (bs = (s.getE a).contents ∨ bs = (s.getE b).contents) → bs.length ≤ 32 →
      Wrote i s ((s.writeBuf d bs).setCR (cmpEnc (s.getE a).contents (s.getE b).contents))) :
    ∃ r, compareSelect p d a b s = commit s r ∧ Result i s r := by
  refine ⟨_, rfl, ?_⟩
  rcases readPair_cases s a b with ⟨_, e⟩ | ⟨ha, hb, e⟩ <;> rw [e]
  · exact .inl ⟨_, rfl, hc⟩
  · refine .inr ⟨_, rfl, hw _ ?_ ?_⟩
    · split
      · exact .inr rfl
      · exact .inl rfl
    · split
      · rw [Buffer.length_contents _ hb]; exact hb
      · rw [Buffer.length_contents _ ha]; exact ha

/-- Every command ends in `commit` of a result of its own. -/
theorem exec_result (i : Instr) (s : State) : ∃ r, exec i s = commit s r ∧ Result i s r := by
  cases i with
  | dec d a =>
    refine ⟨_, rfl, ?_⟩
    rcases readEnc_cases s a with ⟨_, e⟩ | ⟨_, e⟩ <;> rw [e]
    · exact .inl ⟨_, rfl, by simp [codesOf, Err.code]⟩
    · exact .inr ⟨_, rfl, _, rfl⟩
  | decw d a =>
    refine ⟨_, rfl, ?_⟩
    rcases readEnc_cases s a with ⟨_, e⟩ | ⟨_, e⟩ <;> rw [e]
    · exact .inl ⟨_, rfl, by simp [codesOf, Err.code]⟩
    · simp only
      split
      · exact .inr ⟨_, rfl, _, rfl⟩
      · exact .inl ⟨_, rfl, by simp [codesOf, Err.code]⟩
  | enc d a => exact ⟨.ok _, rfl, .inr ⟨_, rfl, rfl⟩⟩
  | parse d =>
    refine ⟨_, rfl, ?_⟩
    cases h : parseText s.tinText with
    | error e => rcases parseText_error h with rfl | rfl <;> exact .inl ⟨_, rfl, by simp [codesOf, Err.code]⟩
    | ok x => exact .inr ⟨_, rfl, _, rfl⟩
  | fmt a => exact ⟨.ok _, rfl, .inr ⟨_, rfl, rfl⟩⟩
  | cmp a b =>
    refine ⟨_, rfl, ?_⟩
    rcases readPair_cases s a b with ⟨_, e⟩ | ⟨_, _, e⟩ <;> rw [e]
    · exact .inl ⟨_, rfl, by simp [codesOf, Err.code]⟩
    · exact .inr ⟨_, rfl, rfl⟩
  | ceq a b => exact comparePredicate_result _ _ _ _ _ (by simp [codesOf]) fun _ => ⟨_, rfl⟩
  | cne a b => exact comparePredicate_result _ _ _ _ _ (by simp [codesOf]) fun _ => ⟨_, rfl⟩
  | clt a b => exact comparePredicate_result _ _ _ _ _ (by simp [codesOf]) fun _ => ⟨_, rfl⟩
  | cle a b => exact comparePredicate_result _ _ _ _ _ (by simp [codesOf]) fun _ => ⟨_, rfl⟩
  | cgt a b => exact comparePredicate_result _ _ _ _ _ (by simp [codesOf]) fun _ => ⟨_, rfl⟩
  | cge a b => exact comparePredicate_result _ _ _ _ _ (by simp [codesOf]) fun _ => ⟨_, rfl⟩
  | min d a b => exact compareSelect_result _ _ _ _ _ _ (by simp [codesOf]) fun bs h h' => ⟨bs, h, h', rfl⟩
  | max d a b => exact compareSelect_result _ _ _ _ _ _ (by simp [codesOf]) fun bs h h' => ⟨bs, h, h', rfl⟩
  | neg d a =>
    refine ⟨_, rfl, ?_⟩
    split
    · exact .inl ⟨_, rfl, by simp [codesOf, Err.code]⟩
    · exact .inr ⟨_, rfl, _, rfl⟩
  | add d a b =>
    refine ⟨_, rfl, ?_⟩
    split
    · exact .inl ⟨_, rfl, by simp [codesOf, Err.code]⟩
    · exact .inr ⟨_, rfl, _, rfl⟩
  | sub d a b =>
    refine ⟨_, rfl, ?_⟩
    split
    · exact .inl ⟨_, rfl, by simp [codesOf, Err.code]⟩
    · exact .inr ⟨_, rfl, _, rfl⟩
  | muls d a =>
    refine ⟨_, rfl, ?_⟩
    split
    · exact .inl ⟨_, rfl, by simp [codesOf, Err.code]⟩
    · exact .inr ⟨_, rfl, _, rfl⟩
  | divs d a =>
    refine ⟨_, rfl, ?_⟩
    simp only
    split
    · exact .inl ⟨_, rfl, by simp [codesOf, Err.code]⟩
    · next h => exact .inr ⟨_, rfl, h, _, rfl⟩

/-- All that a command can answer with a next state: an error of its row taken on the state before, or the success of
the state with its destinations written. -/
theorem exec_cases {i : Instr} {s t : State} (h : exec i s = .next t) :
    (∃ e : Err, e.code ∈ codesOf i ∧ t = s.fail e) ∨ ∃ u, Wrote i s u ∧ t = u.succeed := by
  obtain ⟨r, hr, ⟨e, rfl, he⟩ | ⟨u, rfl, hu⟩⟩ := exec_result i s
  · exact .inl ⟨e, he, by simpa [hr] using h.symm⟩
  · exact .inr ⟨u, hu, by simpa [hr] using h.symm⟩

/-- A command always completes. -/
theorem exec_next (i : Instr) (s : State) : ∃ t, exec i s = .next t := by
  obtain ⟨r, hr, _⟩ := exec_result i s
  rw [hr]; exact commit_next s r

end Sys2Proof.Machine
end

