-- ==== Sys2Proof/Laws/PerInstr.lean ====
section
/-! SUPPORT. Statements about every command as syntax, one lemma per constructor. -/

namespace Sys2Proof.Laws

/-- The command's word has the opcode of a row of R83 and agrees with that row under its mask (30_encoding.md R83, R87). -/
def EncodingHasRow.Statement (i : Instr) : Prop :=
  ∃ r ∈ opcodeMap, opField (encode i) = r.code ∧ r.matchesWord (encode i) = true

theorem EncodingHasRow.dec (d : XReg) (a : EBuf) : EncodingHasRow.Statement (.dec d a) := by
  unfold EncodingHasRow.Statement; cases d <;> cases a <;> decide

theorem EncodingHasRow.decw (d : XReg) (a : EBuf) : EncodingHasRow.Statement (.decw d a) := by
  unfold EncodingHasRow.Statement; cases d <;> cases a <;> decide

theorem EncodingHasRow.enc (d : EBuf) (a : XReg) : EncodingHasRow.Statement (.enc d a) := by
  unfold EncodingHasRow.Statement; cases d <;> cases a <;> decide

theorem EncodingHasRow.parse (d : XReg) : EncodingHasRow.Statement (.parse d) := by
  unfold EncodingHasRow.Statement; cases d <;> decide

theorem EncodingHasRow.fmt (a : XReg) : EncodingHasRow.Statement (.fmt a) := by
  unfold EncodingHasRow.Statement; cases a <;> decide

theorem EncodingHasRow.cmp (a : EBuf) (b : EBuf) : EncodingHasRow.Statement (.cmp a b) := by
  unfold EncodingHasRow.Statement; cases a <;> cases b <;> decide

theorem EncodingHasRow.ceq (a : EBuf) (b : EBuf) : EncodingHasRow.Statement (.ceq a b) := by
  unfold EncodingHasRow.Statement; cases a <;> cases b <;> decide

theorem EncodingHasRow.cne (a : EBuf) (b : EBuf) : EncodingHasRow.Statement (.cne a b) := by
  unfold EncodingHasRow.Statement; cases a <;> cases b <;> decide

theorem EncodingHasRow.clt (a : EBuf) (b : EBuf) : EncodingHasRow.Statement (.clt a b) := by
  unfold EncodingHasRow.Statement; cases a <;> cases b <;> decide

theorem EncodingHasRow.cle (a : EBuf) (b : EBuf) : EncodingHasRow.Statement (.cle a b) := by
  unfold EncodingHasRow.Statement; cases a <;> cases b <;> decide

theorem EncodingHasRow.cgt (a : EBuf) (b : EBuf) : EncodingHasRow.Statement (.cgt a b) := by
  unfold EncodingHasRow.Statement; cases a <;> cases b <;> decide

theorem EncodingHasRow.cge (a : EBuf) (b : EBuf) : EncodingHasRow.Statement (.cge a b) := by
  unfold EncodingHasRow.Statement; cases a <;> cases b <;> decide

theorem EncodingHasRow.min (d : EBuf) (a : EBuf) (b : EBuf) : EncodingHasRow.Statement (.min d a b) := by
  unfold EncodingHasRow.Statement; cases d <;> cases a <;> cases b <;> decide

theorem EncodingHasRow.max (d : EBuf) (a : EBuf) (b : EBuf) : EncodingHasRow.Statement (.max d a b) := by
  unfold EncodingHasRow.Statement; cases d <;> cases a <;> cases b <;> decide

theorem EncodingHasRow.neg (d : XReg) (a : XReg) : EncodingHasRow.Statement (.neg d a) := by
  unfold EncodingHasRow.Statement; cases d <;> cases a <;> decide

theorem EncodingHasRow.add (d : XReg) (a : XReg) (b : XReg) : EncodingHasRow.Statement (.add d a b) := by
  unfold EncodingHasRow.Statement; cases d <;> cases a <;> cases b <;> decide

theorem EncodingHasRow.sub (d : XReg) (a : XReg) (b : XReg) : EncodingHasRow.Statement (.sub d a b) := by
  unfold EncodingHasRow.Statement; cases d <;> cases a <;> cases b <;> decide

theorem EncodingHasRow.muls (d : XReg) (a : XReg) : EncodingHasRow.Statement (.muls d a) := by
  unfold EncodingHasRow.Statement; cases d <;> cases a <;> decide

theorem EncodingHasRow.divs (d : XReg) (a : XReg) : EncodingHasRow.Statement (.divs d a) := by
  unfold EncodingHasRow.Statement; cases d <;> cases a <;> decide

end Sys2Proof.Laws
end

