-- ==== Sys2Proof/Laws/Port.lean ====
section
/-! SUPPORT. What a step can do, said once: the idle step, a command, a data write, a read, a reset, or a refusal. -/

namespace Sys2Proof.Machine

/-! ## Indices -/

@[simp] theorem XReg.ofIndex_index (r : XReg) : XReg.ofIndex r.index = r := by cases r <;> rfl

@[simp] theorem EBuf.ofIndex_index (b : EBuf) : EBuf.ofIndex b.index = b := by cases b <;> rfl

@[simp] theorem xRegAt_index (r : XReg) : xRegAt r.index.toNat = some r := by cases r <;> rfl

@[simp] theorem eBufAt_index (b : EBuf) : eBufAt b.index.toNat = some b := by cases b <;> rfl

theorem xRegAt_isSome (i : Nat) : (xRegAt i).isSome = decide (i ≤ 3) := by
  by_cases h : i < 4
  · simp [xRegAt, h]; omega
  · simp [xRegAt, h]; omega

theorem eBufAt_isSome (i : Nat) : (eBufAt i).isSome = decide (i ≤ 3) := by
  by_cases h : i < 4
  · simp [eBufAt, h]; omega
  · simp [eBufAt, h]; omega

/-! ## Ends of transactions -/

@[simp] theorem written_some (t : State) : written (some t) = .next t := rfl

@[simp] theorem written_none : written none = .refused .noSuchTransaction := rfl

@[simp] theorem State.replied_some (s : State) (r : Reply) :
    s.replied (some r) = .next { s with resp := some r } := rfl

@[simp] theorem State.replied_none (s : State) : s.replied none = .refused .noSuchTransaction := rfl

theorem written_next {o : Option State} {t : State} (h : written o = .next t) : o = some t := by
  cases o <;> simp_all [written]

theorem replied_next {s t : State} {o : Option Reply} (h : s.replied o = .next t) :
    t = { s with resp := t.resp } := by
  cases o with
  | none => simp at h
  | some r =>
    simp only [State.replied_some, Host.Outcome.next.injEq] at h
    subst h; rfl

/-! ## Commands written to the port -/

theorem runCommand_ok {w : Word} {i : Instr} (h : decode w = .ok i) (s : State) : runCommand w s = exec i s := by
  simp [runCommand, h]

theorem runCommand_illegal {w : Word} {e : Illegal} (h : decode w = .error e) (s : State) :
    runCommand w s = .next (s.fail .illegalCommand) := by
  simp [runCommand, h]

/-- A command word always completes. -/
theorem runCommand_next (w : Word) (s : State) : ∃ t, runCommand w s = .next t := by
  unfold runCommand
  split
  · exact exec_next _ _
  · exact ⟨_, rfl⟩

/-! ## Transactions -/

/-- What a transaction other than WCMD leaves alone: only X, E, S, TIN and the reply can change. -/
theorem transact_data {t : Txn} {s u : State} (ht : ∀ w, t ≠ .wcmd w) (h : transact t s = .next u) :
    u = { s with x := u.x, e := u.e, scalar := u.scalar, tin := u.tin, resp := u.resp } := by
  cases t with
  | wcmd w => exact absurd rfl (ht w)
  | wx i j w =>
    have h' := written_next h
    unfold State.hostWriteX at h'
    split at h'
    · cases h'
    · split at h' <;> cases h'; rfl
  | web i k v =>
    have h' := written_next h
    unfold State.hostWriteEByte at h'
    split at h'
    · cases h'
    · obtain ⟨b, _, rfl⟩ := Option.map_eq_some_iff.mp h'; rfl
  | wel i v => obtain ⟨b, _, rfl⟩ := Option.map_eq_some_iff.mp (written_next h); rfl
  | wtb k v => obtain ⟨b, _, rfl⟩ := Option.map_eq_some_iff.mp (written_next h); rfl
  | wob k v =>
    have h' := written_next h
    unfold State.hostWriteTout at h'
    split at h' <;> cases h'; rfl
  | ws w => cases h; rfl
  | wtl v => cases h; rfl
  | wrem w => cases h; rfl
  | wol v => cases h; rfl
  | wst w => cases h; rfl
  | rx i j => rw [replied_next h]
  | rel i => rw [replied_next h]
  | reb i k => rw [replied_next h]
  | rs => cases h; rfl
  | rrem => cases h; rfl
  | rtl => cases h; rfl
  | rtb k => rw [replied_next h]
  | rol => cases h; rfl
  | rob k => rw [replied_next h]
  | rst => cases h; rfl

/-! ## The step -/

/-- All that a step can answer with a next state. -/
theorem step_cases {s t : State} (h : step s = .next t) :
    (s.port = [] ∧ t = s) ∨
    ∃ ev rest, s.port = ev :: rest ∧
      ((∃ w i, ev = .txn (.wcmd w) ∧ decode w = .ok i ∧ exec i (s.accept rest) = .next t) ∨
       (∃ w e, ev = .txn (.wcmd w) ∧ decode w = .error e ∧ t = (s.accept rest).fail .illegalCommand) ∨
       (∃ x, ev = .txn x ∧ (∀ w, x ≠ .wcmd w) ∧ transact x (s.accept rest) = .next t) ∨
       ((ev = .reset ∨ ∃ x, ev = .resetDuring x) ∧ t = { State.reset with port := rest })) := by
  unfold step nextEvent at h
  split at h
  · next hp => cases h; exact .inl ⟨hp, rfl⟩
  · next ev rest hp =>
    refine .inr ⟨ev, rest, hp, ?_⟩
    cases ev with
    | reset => cases h; exact .inr (.inr (.inr ⟨.inl rfl, rfl⟩))
    | resetDuring x => cases h; exact .inr (.inr (.inr ⟨.inr ⟨x, rfl⟩, rfl⟩))
    | txn x =>
      by_cases hx : ∃ w, x = .wcmd w
      · obtain ⟨w, rfl⟩ := hx
        change runCommand w _ = _ at h
        cases hd : decode w with
        | ok i => exact .inl ⟨w, i, rfl, hd, by rw [← h, runCommand_ok hd]⟩
        | error e =>
          rw [runCommand_illegal hd] at h
          exact .inr (.inl ⟨w, e, rfl, hd, by cases h; rfl⟩)
      · exact .inr (.inr (.inl ⟨x, rfl, fun w hw => hx ⟨w, hw⟩, h⟩))

end Sys2Proof.Machine
end

