-- ==== Sys2Proof/Tests/Slice0.lean ====
section
/-! SUPPORT. Small tests: words written out from the spec's encodings, one or two steps of each command with the results of
95_test_vectors.md and of the rules' examples, the ill-formed words and lines that are refused, and a witness for the hypotheses
of each statement. -/

namespace Sys2Proof.Tests

open Sys2Proof.Machine

-- One theorem at a time: most of them wait for the kernel, and each that waits holds a thread and its stack.
set_option Elab.async false

/-! ## Helpers -/

/-- The state after a command; the state before it if there is none. -/
def after (i : Instr) (s : State) : State :=
  match exec i s with
  | .next t => t
  | _ => s

/-- Reset with bytes in E0 and E1. -/
def withE (a b : List Byte) : State :=
  ((State.reset.setE .e0 (.ofBytes _ a)).setE .e1 (.ofBytes _ b))

/-- Reset with LEN 33 in E0 and zeros in its DATA. -/
def overlong : State := State.reset.setE .e0 ⟨33, Vector.replicate _ 0⟩

/-- Reset with values in X0 and X1 and a scalar. -/
def withX (a b : Int) (m : Word := 0) : State :=
  { ((State.reset.setX .x0 (enc256 a)).setX .x1 (enc256 b)) with scalar := m }

/-- Reset with a text in TIN. -/
def withText (t : List Byte) : State := { State.reset with tin := .ofBytes _ t }

/-! ## WellFormed: what it refuses, check by check (R84 to R86, R90) -/

theorem test_wf_accepts_add : wordWellFormed 0x00003F31 = true := by decide
theorem test_wf_refuses_rsv : rsvIsZero 0x00004031 = false ∧ rsvIsZero 0x80000031 = false := by decide
theorem test_wf_refuses_opcode : opcodeIsAssigned 0x00000000 = false ∧ opcodeIsAssigned 0x00000742 = false := by decide
theorem test_wf_refuses_unused_d : unusedDIsZero 0x00000111 = false ∧ unusedDIsZero 0x00001120 = false := by decide
theorem test_wf_refuses_unused_a : unusedAIsZero 0x00000C10 = false := by decide
theorem test_wf_refuses_unused_b : unusedBIsZero 0x00002003 = false ∧ unusedBIsZero 0x00001330 = false := by decide
theorem test_wf_refuses_class : operandClassOk .reg ⟨.buf, 1⟩ = false := by decide
theorem test_wf_refuses_index : operandIndexOk ⟨.reg, 4⟩ = false := by decide
theorem test_wf_refuses_count : operandCountOk [.reg, .reg] [⟨.reg, 0⟩] = false ∧
    operandCountOk [.reg] [⟨.reg, 0⟩, ⟨.reg, 0⟩] = false := by decide
theorem test_wf_operands : operandsWellFormed [.reg, .buf] [⟨.reg, 3⟩, ⟨.buf, 0⟩] = true ∧
    operandsWellFormed [.reg, .buf] [⟨.reg, 3⟩, ⟨.buf, 4⟩] = false := by decide

/-- `ADD X0, E1, X2` (R90). -/
theorem test_assemble_refuses_wrong_class :
    assemble ⟨['A', 'D', 'D'], [['X', '0'], ['E', '1'], ['X', '2']]⟩ = .error .wrongClass := by rfl
theorem test_assemble_refuses_the_rest :
    assemble ⟨['A', 'D', 'D'], [['X', '0'], ['X', '1']]⟩ = .error .operandCount ∧
    assemble ⟨['N', 'E', 'G'], [['X', '0'], ['X', '4']]⟩ = .error .indexAboveThree ∧
    assemble ⟨['N', 'E', 'G'], [['X', '0'], ['Y', '1']]⟩ = .error .notAnOperand ∧
    assemble ⟨['N', 'O', 'P'], []⟩ = .error .unknownMnemonic := ⟨rfl, rfl, rfl, rfl⟩
theorem test_assemble_any_case :
    assemble ⟨['s', 'U', 'b'], [['x', '2'], ['X', '0'], ['x', '1']]⟩ = .ok (.sub .x2 .x0 .x1) := by rfl

/-! ## Decoding: one word for each constructor, written out from R81 and R83 as `bb aa dd oooooooo` -/

theorem test_decode_dec : decode 0b00000000000000000000_00_01_00000001 = .ok (.dec .x1 .e0) := by rfl
theorem test_decode_decw : decode 0b00000000000000000000_10_00_00000010 = .ok (.decw .x0 .e2) := by rfl
theorem test_decode_enc : decode 0b00000000000000000000_11_01_00000011 = .ok (.enc .e1 .x3) := by rfl
theorem test_decode_parse : decode 0b0000000000000000000000_01_00010000 = .ok (.parse .x1) := by rfl
theorem test_decode_fmt : decode 0b00000000000000000000_10_00_00010001 = .ok (.fmt .x2) := by rfl
theorem test_decode_cmp : decode 0b000000000000000000_01_00_00_00100000 = .ok (.cmp .e0 .e1) := by rfl
theorem test_decode_ceq : decode 0b000000000000000000_01_10_00_00100001 = .ok (.ceq .e2 .e1) := by rfl
theorem test_decode_cne : decode 0b000000000000000000_11_10_00_00100010 = .ok (.cne .e2 .e3) := by rfl
theorem test_decode_clt : decode 0b000000000000000000_10_01_00_00100011 = .ok (.clt .e1 .e2) := by rfl
theorem test_decode_cle : decode 0b000000000000000000_00_11_00_00100100 = .ok (.cle .e3 .e0) := by rfl
theorem test_decode_cgt : decode 0b000000000000000000_01_00_00_00100101 = .ok (.cgt .e0 .e1) := by rfl
theorem test_decode_cge : decode 0b000000000000000000_10_00_00_00100110 = .ok (.cge .e0 .e2) := by rfl
theorem test_decode_min : decode 0b000000000000000000_10_01_11_00100111 = .ok (.min .e3 .e1 .e2) := by rfl
theorem test_decode_max : decode 0b000000000000000000_01_00_11_00101000 = .ok (.max .e3 .e0 .e1) := by rfl
theorem test_decode_neg : decode 0b00000000000000000000_11_10_00110000 = .ok (.neg .x2 .x3) := by rfl
theorem test_decode_add : decode 0b000000000000000000_01_00_10_00110001 = .ok (.add .x2 .x0 .x1) := by rfl
theorem test_decode_sub : decode 0b000000000000000000_01_11_11_00110010 = .ok (.sub .x3 .x3 .x1) := by rfl
theorem test_decode_muls : decode 0b00000000000000000000_01_10_01000000 = .ok (.muls .x2 .x1) := by rfl
theorem test_decode_divs : decode 0b00000000000000000000_01_11_01000001 = .ok (.divs .x3 .x1) := by rfl
/-- 95_test_vectors.md L2.12. -/
theorem test_decode_rejects_by_name :
    decode 0x00004031 = .error .reservedBits ∧ decode 0x00000004 = .error .unassignedOpcode ∧
    decode 0x000000FF = .error .unassignedOpcode ∧ decode 0x00000111 = .error .unusedField := ⟨rfl, rfl, rfl, rfl⟩
theorem test_decodeTableWord : decodeTableWord 32 0x1231 = some (.add .x2 .x0 .x1) := by rfl

/-! ## Commands (95_test_vectors.md L2) -/

/-- L2.2. -/
theorem test_dec_word_layout : (after (.dec .x1 .e0) (withE [1, 2, 3, 4, 5] [])).x.x1 = 0x504030201 := by decide +kernel
theorem test_dec_sign_extends : val (after (.dec .x1 .e0) (withE [0x7F, 0xFF] [])).x.x1 = -129 := by decide +kernel
/-- L2.3. -/
theorem test_decw_rejects : (after (.decw .x0 .e0) (withE [0x7F, 0x00] [])).status.word = 3 ∧
    (after (.decw .x0 .e0) overlong).status.word = 2 := by decide +kernel
theorem test_decw_accepts : val (after (.decw .x0 .e0) (withE [0x80, 0x00] [])).x.x0 = 128 := by decide +kernel
/-- L2.1. -/
theorem test_enc_negative : (after (.enc .e2 .x0) (withX (-32769) 0)).e.e2 = .ofBytes _ [0xFF, 0x7F, 0xFF] := by decide +kernel
theorem test_enc_minv :
    (after (.enc .e2 .x0) (withX Config.minV 0)).e.e2 = .ofBytes _ (List.replicate 31 0 ++ [0x80]) := by decide +kernel
/-- L2.4: "-1234567890" in two chunks, "12a". -/
theorem test_parse_chunks :
    val (after (.parse .x1) (withText [0x2D, 0x31, 0x32, 0x33, 0x34, 0x35, 0x36, 0x37, 0x38, 0x39, 0x30])).x.x1 =
      -1234567890 := by decide +kernel
theorem test_parse_syntax : (after (.parse .x1) (withText [0x31, 0x32, 0x61])).status.word = 1 := by decide +kernel
/-- L2.5: -10^9, whose low group is zero. -/
theorem test_fmt_zero_group : (after (.fmt .x0) (withX (-1000000000) 0)).tout =
    .ofBytes _ ([0x2D, 0x31] ++ List.replicate 9 0x30) := by decide +kernel
theorem test_fmt_minv_length : (after (.fmt .x0) (withX Config.minV 0)).tout.len = 78 := by decide +kernel
/-- L2.6. -/
theorem test_cmp_lengths : (after (.cmp .e0 .e1) (withE [0x80] [0x80, 0x00])).status.word = 0x30 := by decide +kernel
theorem test_cmp_keeps_t : (after (.cmp .e0 .e1) (after (.ceq .e2 .e3) State.reset)).status.t = true := by decide +kernel
theorem test_ceq_non_minimal : (after (.ceq .e0 .e1) (withE [0xFF, 0xFF] [0xFF])).status.word = 0x30 := by decide +kernel
theorem test_cne : (after (.cne .e0 .e1) (withE [0x01] [0x02])).status.word = 0x70 := by decide +kernel
theorem test_clt : (after (.clt .e0 .e1) (withE [0xFF] [])).status.word = 0x70 := by decide +kernel
theorem test_cle_equal : (after (.cle .e0 .e1) (withE [0x80] [0x80])).status.word = 0x40 := by decide +kernel
theorem test_cgt : (after (.cgt .e0 .e1) (withE [0x00, 0x01] [0xFF, 0x00])).status.word = 0x50 := by decide +kernel
theorem test_cge_less : (after (.cge .e0 .e1) (withE [] [0x01])).status.word = 0x30 := by decide +kernel
theorem test_min : (after (.min .e2 .e0 .e1) (withE [0x7B] [0x85])).e.e2 = .ofBytes _ [0x85] := by decide +kernel
theorem test_max_in_place : (after (.max .e1 .e0 .e1) (withE [0x7B] [0x85])).e.e1 = .ofBytes _ [0x7B] := by decide +kernel
/-- L2.7. -/
theorem test_neg : (after (.neg .x1 .x0) (withX 4294967296 0)).x.x1 = ~~~(0xFFFFFFFF : Reg) := by decide +kernel
theorem test_neg_overflow : (after (.neg .x1 .x0) (withX Config.minV 7)).status.word = 0x0D ∧
    val (after (.neg .x1 .x0) (withX Config.minV 7)).x.x1 = 7 := by decide +kernel
/-- L2.8. -/
theorem test_add_carry : (after (.add .x2 .x0 .x1) (withX 18446744073709551615 1)).x.x2 = 0x10000000000000000 := by decide +kernel
theorem test_add_overflow : (after (.add .x2 .x0 .x1) (withX Config.maxV 1)).status.word = 0x0D := by decide +kernel
/-- L2.9. -/
theorem test_sub_borrow : (after (.sub .x2 .x0 .x1) (withX 4294967296 1)).x.x2 = 0xFFFFFFFF := by decide +kernel
theorem test_sub_minv : (after (.sub .x2 .x0 .x1) (withX (-1) Config.minV)).x.x2 = enc256 Config.maxV := by decide +kernel
/-- L2.10. -/
theorem test_muls_unsigned_scalar : val (after (.muls .x1 .x0) (withX (-1) 0 0xFFFFFFFF)).x.x1 = -4294967295 := by decide +kernel
theorem test_muls_minv_twice : (after (.muls .x1 .x0) (withX Config.minV 0 2)).status.word = 0x0D := by decide +kernel
/-- L2.11. -/
theorem test_divs_minv : (after (.divs .x1 .x0) (withX Config.minV 0 1000000000)).rem = 564819968 := by decide +kernel
theorem test_divs_by_zero : (after (.divs .x1 .x0) (withX 7 5)).status.word = 4 ∧
    val (after (.divs .x1 .x0) (withX 7 5)).x.x1 = 5 := by decide +kernel
/-- L2.13: a TooLong after a CLT keeps CR and T. -/
theorem test_status_after_error :
    (after (.clt .e0 .e1) { overlong with status := ⟨0, false, 0b11, true⟩ }).status.word = 0x72 := by decide +kernel

/-! ## The port -/

theorem test_word_is_replaced : setWord 0x111111112222222233333333 1 0xAAAAAAAA = 0x11111111AAAAAAAA33333333 := by decide +kernel
theorem test_no_such_register : transact (.rx 4 0) State.reset = .refused .noSuchTransaction := by rfl
theorem test_no_such_character : transact (.wtb 255 0) State.reset = .refused .noSuchTransaction := by rfl
theorem test_illegal_word_is_an_error :
    step (State.reset.withFetchWord 32 0x00004031) = .next (State.reset.raised 6) := by rfl
theorem test_first_command_after_reset :
    step (State.reset.withFetchWord 32 0x00001231) = exec (.add .x2 .x0 .x1) State.reset := by rfl


/-! ## Witnesses: for each statement with hypotheses, states and operands that meet them, clause by clause -/

/-- Reset with events at the port. -/
def withPort (evs : List Event) : State := { State.reset with port := evs }

/-- Reset with LEN 32 and zeros in E0, and LEN 33 in E1. -/
def lengths : State :=
  (State.reset.setE .e0 ⟨32, Vector.replicate _ 0⟩).setE .e1 ⟨33, Vector.replicate _ 0⟩

/-- Every command answers a next state, so `after` is that state. -/
theorem exec_after (i : Instr) (s : State) : exec i s = .next (after i s) := by
  obtain ⟨t, h⟩ := exec_next i s
  unfold after; rw [h]

/-! ### Command words -/

theorem witness_decode_ok : decode 0x00003F32 = .ok (.sub .x3 .x3 .x3) ∧ encode (.sub .x3 .x3 .x3) = 0x00003F32 := by decide
theorem witness_decode_reserved : (0x00004031 : Word).extractLsb' 14 18 ≠ 0 ∧
    (0x80000031 : Word).extractLsb' 14 18 ≠ 0 := by decide
theorem witness_decode_unassigned : (0x000000FF : Word).extractLsb' 14 18 = 0 ∧
    ∀ r ∈ opcodeMap, r.code ≠ (0x000000FF : Word).extractLsb' 0 8 := by decide
/-- Each row of R83 is the row of some word, its own pattern. -/
theorem witness_decode_row : ∀ r ∈ opcodeMap, r.pattern.extractLsb' 14 18 = 0 ∧
    r.code = r.pattern.extractLsb' 0 8 := by decide
/-- The ends of the ranges of R86. -/
theorem witness_illegal_opcodes : ∀ op ∈ [0x00, 0x04, 0x0F, 0x12, 0x1F, 0x29, 0x2F, 0x33, 0x3F, 0x42, 0xFF],
    op = 0 ∨ (0x04 ≤ op ∧ op ≤ 0x0F) ∨ (0x12 ≤ op ∧ op ≤ 0x1F) ∨ (0x29 ≤ op ∧ op ≤ 0x2F) ∨
      (0x33 ≤ op ∧ op ≤ 0x3F) ∨ 0x42 ≤ op := by decide
theorem witness_legal_opcodes : ∀ r ∈ opcodeMap, ¬ (r.code.toNat = 0 ∨ (0x04 ≤ r.code.toNat ∧ r.code.toNat ≤ 0x0F) ∨
    (0x12 ≤ r.code.toNat ∧ r.code.toNat ≤ 0x1F) ∨ (0x29 ≤ r.code.toNat ∧ r.code.toNat ≤ 0x2F) ∨
    (0x33 ≤ r.code.toNat ∧ r.code.toNat ≤ 0x3F) ∨ 0x42 ≤ r.code.toNat) := by decide +kernel
/-- FMT with D = 1, CMP with D = 1, PARSE with A = 3, ENC with B = 2, NEG with B = 1, DIVS with B = 1. -/
theorem witness_illegal_fields :
    decode 0x00000111 = .error .unusedField ∧ decode 0x00000120 = .error .unusedField ∧
    decode 0x00000C10 = .error .unusedField ∧ decode 0x00002003 = .error .unusedField ∧
    decode 0x00001330 = .error .unusedField ∧ decode 0x00001041 = .error .unusedField :=
  ⟨rfl, rfl, rfl, rfl, rfl, rfl⟩
theorem witness_assemble : ∃ l i, assemble l = .ok i ∧ disassemble i = ⟨upper l.mnemonic, l.operands.map upper⟩ :=
  ⟨⟨['s', 'U', 'b'], [['x', '2'], ['X', '0'], ['x', '1']]⟩, .sub .x2 .x0 .x1, rfl, rfl⟩

/-! ### Steps, reset and legal states -/

theorem witness_step_command : (withPort [.txn (.wcmd 0x00001231), .reset]).port = .txn (.wcmd 0x00001231) :: [.reset] ∧
    decode 0x00001231 = .ok (.add .x2 .x0 .x1) := ⟨rfl, rfl⟩
theorem witness_step_transaction : (withPort [.txn (.rx 3 7)]).port = .txn (.rx 3 7) :: [] := rfl
theorem witness_presented : decodeTableWord 32 0x00003F31 = some (.add .x3 .x3 .x3) := by rfl
theorem witness_idle : State.reset.port = [] := rfl
theorem witness_reset_event : (withPort [.reset]).port = .reset :: [] ∧
    (withPort [.resetDuring (.wcmd 0x41), .reset]).port = .resetDuring (.wcmd 0x41) :: [.reset] ∧
    (withPort [.resetDuring (.rx 4 0)]).port = .resetDuring (.rx 4 0) :: [] := ⟨rfl, rfl, rfl⟩
/-- Two states that differ in the byte of E0 just past its LEN. -/
theorem witness_bytes_beyond :
    let s := State.reset.setE .e0 ⟨1, (Vector.replicate _ 0).set 1 0xAA⟩
    let s' := State.reset.setE .e0 ⟨1, (Vector.replicate _ 0).set 1 0xBB⟩
    s ≠ s' ∧ s' = { s with e := s'.e } ∧
    (∀ b, (s.getE b).len = (s'.getE b).len ∧
      ∀ k < (s.getE b).len.toNat, (s.getE b).data.toList[k]? = (s'.getE b).data.toList[k]?) := by
  refine ⟨by decide +kernel, rfl, fun b => ?_⟩
  cases b <;> decide +kernel
theorem witness_error : transact (.wcmd 0x00000000) State.reset = .next (State.reset.raised 6) ∧
    (State.reset.raised 6).status.err ≠ 0 := ⟨rfl, by decide⟩
theorem overflow_step (s : State) (h : s = withX Config.maxV 1) :
    transact (.wcmd 0x00001231) s = .next (after (.add .x2 .x0 .x1) s) ∧ (after (.add .x2 .x0 .x1) s).status.err ≠ 0 := by
  refine ⟨?_, ?_⟩
  · rw [← exec_after]; exact runCommand_ok test_decode_add s
  · subst h; decide +kernel
theorem witness_error_overflow : transact (.wcmd 0x00001231) (withX Config.maxV 1) =
    .next (after (.add .x2 .x0 .x1) (withX Config.maxV 1)) ∧
    (after (.add .x2 .x0 .x1) (withX Config.maxV 1)).status.err ≠ 0 := overflow_step _ rfl
theorem witness_illegal_word : decode 0x00004031 = .error .reservedBits := rfl
theorem reset_legal : State.reset.Legal :=
  ⟨by decide +kernel, by decide +kernel, by decide +kernel, by decide +kernel, .inl rfl⟩
theorem witness_step_keeps_legal : State.reset.Legal ∧ step State.reset = .next State.reset := ⟨reset_legal, by rfl⟩
theorem witness_step_keeps_legal_command : (State.reset.withFetchWord 32 0x00000041).Legal ∧
    step (State.reset.withFetchWord 32 0x00000041) = .next (after (.divs .x0 .x0) State.reset) :=
  ⟨⟨reset_legal.1, reset_legal.2, reset_legal.3, reset_legal.4, .inl rfl⟩,
    (by rfl : step (State.reset.withFetchWord 32 0x00000041) = exec (.divs .x0 .x0) State.reset).trans (exec_after _ _)⟩
/-- The last index of every range of R40, and a reset between. -/
theorem witness_safe : (withPort [.txn (.wx 3 7 0), .txn (.web 3 31 0), .reset, .txn (.wtb 254 0), .txn (.rob 77)]).Safe :=
  ⟨⟨reset_legal.1, reset_legal.2, reset_legal.3, reset_legal.4, .inl rfl⟩, by decide⟩

/-! ### Encodings -/

theorem witness_lengths : (lengths.getE .e0).len.toNat ≤ 32 ∧ 32 < (lengths.getE .e1).len.toNat := by decide +kernel
theorem witness_decode_bytes : ([] : List Byte).length ≤ 32 ∧ ([0x80] : List Byte).length ≤ 32 ∧
    (List.replicate 32 (0x80 : Byte)).length ≤ 32 := by decide
/-- The first value beyond one byte, and the ends of the range of 32. -/
theorem witness_min_len : minLen (enc256 128) = 2 ∧ minLen (enc256 (-128)) = 1 ∧ minLen (enc256 Config.maxV) = 32 ∧
    minLen (enc256 Config.minV) = 32 := by decide +kernel
theorem witness_wire_check : wireCheckPasses [0x00] = false ∧ wireCheckPasses [0x7F, 0x00] = false ∧
    wireCheckPasses [0x80, 0x00] = true ∧ wireCheckPasses [] = true := by decide
/-- DECW: malformed with n = 1 and n = 2, well formed with n = 0 and n = 2. -/
theorem witness_decw : ∀ p ∈ [(([0x00] : List Byte), true), ([0x7F, 0x00], true), ([], false), ([0x80, 0x00], false)],
    let s := withE p.1 []
    let n := (s.getE .e0).len.toNat
    let data := (s.getE .e0).data.toList
    n ≤ 32 ∧ decide (1 ≤ n ∧ data.getD (n - 1) 0 = 0x00 ∧ (n = 1 ∨ (data.getD (n - 2) 0).toNat < 0x80)) = p.2 := by
  decide +kernel
theorem witness_minimal : minimal [] = true ∧ minimal [0xFF] = true ∧ minimal (List.replicate 31 0 ++ [0x80]) = true := by
  decide +kernel
theorem witness_not_minimal : minimal [0x00] = false ∧ minimal [0xFF, 0xFF] = false ∧
    minimal (List.replicate 32 0) = false ∧ (List.replicate 32 (0 : Byte)).length ≤ 32 := by decide +kernel
theorem witness_in_range : InRange Config.minV ∧ InRange Config.maxV ∧ InRange 0 ∧ ¬ InRange (Config.maxV + 1) ∧
    ¬ InRange (Config.minV - 1) := by decide
theorem witness_round_trip : ((withE [0xFF] []).getE .e0).len.toNat ≤ 32 ∧
    minimal ((withE [0xFF] []).getE .e0).contents = true ∧ ((withE [0xFF, 0xFF] []).getE .e0).len.toNat ≤ 32 ∧
    minimal ((withE [0xFF, 0xFF] []).getE .e0).contents = false := by decide +kernel

/-! ### Decimal text -/

/-- The digits of 2^255, whose last one decides the range (R124): "...967" is the largest value, "-...968" the smallest. -/
def edgeDigits (last : Byte) : List Byte :=
  [0x35, 0x37, 0x38, 0x39, 0x36, 0x30, 0x34, 0x34, 0x36, 0x31, 0x38, 0x36, 0x35, 0x38, 0x30, 0x39, 0x37, 0x37, 0x31, 0x31,
   0x37, 0x38, 0x35, 0x34, 0x39, 0x32, 0x35, 0x30, 0x34, 0x33, 0x34, 0x33, 0x39, 0x35, 0x33, 0x39, 0x32, 0x36, 0x36, 0x33,
   0x34, 0x39, 0x39, 0x32, 0x33, 0x33, 0x32, 0x38, 0x32, 0x30, 0x32, 0x38, 0x32, 0x30, 0x31, 0x39, 0x37, 0x32, 0x38, 0x37] ++
  [0x39, 0x32, 0x30, 0x30, 0x33, 0x39, 0x35, 0x36, 0x35, 0x36, 0x34, 0x38, 0x31, 0x39, 0x39, 0x36, last]
theorem witness_digits : ∀ c ∈ edgeDigits 0x38, 0x30 ≤ c.toNat ∧ c.toNat ≤ 0x39 := by decide
theorem witness_parse_in_range : InRange (decimalValue false (edgeDigits 0x37)) ∧
    InRange (decimalValue true (edgeDigits 0x38)) := by decide +kernel
theorem witness_parse_out_of_range : ¬ InRange (decimalValue false (edgeDigits 0x38)) ∧
    ¬ InRange (decimalValue true (edgeDigits 0x39)) := by decide +kernel
theorem witness_signed_digits : SignedDigits (withText (edgeDigits 0x37)).tinText false (edgeDigits 0x37) ∧
    SignedDigits (withText (0x2B :: edgeDigits 0x38)).tinText false (edgeDigits 0x38) ∧
    SignedDigits (withText (0x2D :: edgeDigits 0x38)).tinText true (edgeDigits 0x38) := by
  refine ⟨⟨?_, ?_, .inl ⟨?_, rfl⟩⟩, ⟨?_, ?_, .inr (.inl ⟨?_, rfl⟩)⟩, ⟨?_, ?_, .inr (.inr ⟨?_, rfl⟩)⟩⟩ <;> decide +kernel
/-- The empty text has no digits, and "-" no digit after its sign. -/
theorem witness_syntax_error : (∀ neg ds, ¬ SignedDigits State.reset.tinText neg ds) ∧
    ∀ neg ds, ¬ SignedDigits (withText [0x2D]).tinText neg ds := by
  have h0 : State.reset.tinText = [] := by decide +kernel
  have h1 : (withText [0x2D]).tinText = [0x2D] := by decide +kernel
  rw [h0, h1]
  constructor <;> rintro neg ds ⟨hne, hd, h | h | h⟩ <;> obtain ⟨h, -⟩ := h
  · exact hne h.symm
  · cases h
  · cases h
  · subst h; exact absurd (hd 0x2D (by simp)) (by decide)
  · cases h
  · cases h; exact hne rfl
theorem witness_format_parse : (withText [0x30]).tinText = canonicalDecimal (val 0) := by decide +kernel

/-! ### Comparisons -/

theorem witness_cmp_lengths : ([] : List Byte).length < [(0x01 : Byte)].length := by decide
theorem witness_cmp_same_length : [(0x01 : Byte), 0x80].length = 1 + 1 ∧ [(0xFF : Byte), 0x7F].length = 1 + 1 ∧
    [(0x01 : Byte), 0x80].getD 1 0 ≠ [(0xFF : Byte), 0x7F].getD 1 0 := by decide
/-- Equal top bytes, and the last byte decides. -/
theorem witness_cmp_lower_byte :
    let a : List Byte := [0x01, 0x05, 0x80]
    let b : List Byte := [0x02, 0x05, 0x80]
    a.getD 2 0 = b.getD 2 0 ∧ (0 : Nat) < 2 ∧ a.getD 0 0 ≠ b.getD 0 0 ∧ ∀ m, 0 < m → m < 2 → a.getD m 0 = b.getD m 0 := by
  refine ⟨by decide, by decide, by decide, fun m h1 h2 => ?_⟩
  obtain rfl : m = 1 := by omega
  decide
theorem witness_cmp_order : minimal [0x80] = true ∧ minimal [] = true ∧ minimal [0x80, 0x00] = true ∧
    cmpEnc [0x80] [] ≠ .gt ∧ cmpEnc [] [0x80, 0x00] ≠ .gt := by decide +kernel
theorem witness_cmp_readable : (State.reset.getE .e0).len.toNat ≤ 32 ∧ (lengths.getE .e0).len.toNat ≤ 32 := by decide +kernel
theorem witness_predicate : (Instr.cge .e0 .e1, 0x26, fun c : Int => c != -1) ∈
    ([(.ceq .e0 .e1, 0x21, fun c => c == 0), (.cne .e0 .e1, 0x22, fun c => c != 0),
      (.clt .e0 .e1, 0x23, fun c => c == -1), (.cle .e0 .e1, 0x24, fun c => c != 1),
      (.cgt .e0 .e1, 0x25, fun c => c == 1), (.cge .e0 .e1, 0x26, fun c => c != -1)] :
      List (Instr × Nat × (Int → Bool))) := by simp
theorem witness_min_max : (Instr.max .e0 .e1 .e2, 0x28, (-1 : Int)) ∈
    ([(.min .e0 .e1 .e2, 0x27, 1), (.max .e0 .e1 .e2, 0x28, -1)] : List (Instr × Nat × Int)) := by simp
theorem witness_min_max_values :
    let s := (State.reset.setE .e0 (.ofBytes 32 (minimalEncoding (enc256 Config.minV)))).setE .e1
      (.ofBytes 32 (minimalEncoding (enc256 Config.maxV)))
    s.getE .e0 = .ofBytes 32 (minimalEncoding (enc256 Config.minV)) ∧
    s.getE .e1 = .ofBytes 32 (minimalEncoding (enc256 Config.maxV)) := ⟨rfl, rfl⟩

/-! ### Arithmetic -/

theorem witness_neg : val ((withX Config.maxV 0).getX .x0) ≠ -(2 : Int) ^ 255 ∧
    val ((withX Config.minV 0).getX .x0) = -(2 : Int) ^ 255 := by decide +kernel
/-- ADD at both ends of the range, and one beyond each. -/
theorem witness_add : ∀ p ∈ [(Config.maxV, (0 : Int), true), (Config.minV, 0, true), (Config.maxV, 1, false),
      (Config.minV, -1, false)],
    decide (InRange (val ((withX p.1 p.2.1).getX .x0) + val ((withX p.1 p.2.1).getX .x1))) = p.2.2 := by decide +kernel
/-- SUB at both ends of the range, and one beyond each. -/
theorem witness_sub : ∀ p ∈ [(Config.maxV, (0 : Int), true), (-1, Config.minV, true), (0, Config.minV, false),
      (Config.minV, 1, false)],
    decide (InRange (val ((withX p.1 p.2.1).getX .x0) - val ((withX p.1 p.2.1).getX .x1))) = p.2.2 := by decide +kernel
/-- NEG X1, X0 and then ADD, from X0 = 5. -/
theorem witness_identity_zero : exec (.neg .x1 .x0) (withX 5 0) = .next (after (.neg .x1 .x0) (withX 5 0)) ∧
    (after (.neg .x1 .x0) (withX 5 0)).status.err = 0 := ⟨exec_after _ _, by decide +kernel⟩
/-- X0 = 5 and X1 = 7: SUB, and NEG X2, X1 then ADD. -/
theorem witness_identity_sub :
    let s := withX 5 7
    let t := after (.sub .x3 .x0 .x1) s
    let u := after (.neg .x2 .x1) s
    let v := after (.add .x3 .x0 .x2) u
    exec (.sub .x3 .x0 .x1) s = .next t ∧ t.status.err = 0 ∧ exec (.neg .x2 .x1) s = .next u ∧
    exec (.add .x3 .x0 .x2) u = .next v ∧ u.status.err = 0 ∧ v.status.err = 0 :=
  ⟨exec_after _ _, by decide +kernel, exec_after _ _, exec_after _ _, by decide +kernel, by decide +kernel⟩
theorem witness_identity_minv : val ((withX (-1) Config.minV).getX .x0) = -1 ∧
    val ((withX (-1) Config.minV).getX .x1) = Config.minV := by decide +kernel
theorem witness_identity_boundary :
    Config.maxV = val ((withX (Config.maxV - 1) 1).getX .x0) + val ((withX (Config.maxV - 1) 1).getX .x1) ∧
    Config.minV - 1 = val ((withX Config.minV (-1)).getX .x0) + val ((withX Config.minV (-1)).getX .x1) ∧
    Config.minV = val ((withX (Config.minV + 1) 1).getX .x0) - val ((withX (Config.minV + 1) 1).getX .x1) ∧
    Config.maxV + 1 = val ((withX Config.maxV (-1)).getX .x0) - val ((withX Config.maxV (-1)).getX .x1) := by decide +kernel
/-- MULS: -2^254 * 2 is in range, 2^254 * 2 and -2^255 * 2 are not (R191). -/
theorem witness_muls : ∀ p ∈ [(-((2 ^ 254 : Nat) : Int), true), (((2 ^ 254 : Nat) : Int), false), (Config.minV, false)],
    decide (InRange (val ((withX p.1 0 2).getX .x0) * ((withX p.1 0 2).scalar.toNat : Int))) = p.2 := by decide +kernel
theorem witness_divs : (withX 7 0).scalar.toNat = 0 ∧ 0 < (withX 7 0 1).scalar.toNat ∧
    0 ≤ val ((withX 0 0 1).getX .x0) ∧ val ((withX (-1) 0 1).getX .x0) < 0 := by decide +kernel
/-- The rows of R193, by sign and by value. -/
theorem witness_scalar_rows : ∀ p ∈ [(Config.minV, (1 : Word)), (Config.minV, 3), (Config.maxV, 0xFFFFFFFF), (7, 2), (-7, 2),
      (0, 1), (5, 0)],
    val ((withX p.1 0 p.2).getX .x0) = p.1 ∧ (withX p.1 0 p.2).scalar = p.2 := by decide +kernel

/-! ### Frames and transactions -/

/-- Every command answers a next state (`exec_after`), so every frame's hypotheses are met. -/
theorem witness_frames : exec (.muls .x0 .x0) State.reset = .next (after (.muls .x0 .x0) State.reset) ∧
    exec (.divs .x0 .x1) State.reset = .next (after (.divs .x0 .x1) State.reset) ∧
    exec (.fmt .x0) State.reset = .next (after (.fmt .x0) State.reset) ∧
    exec (.max .e0 .e1 .e2) State.reset = .next (after (.max .e0 .e1 .e2) State.reset) ∧
    exec (.cge .e0 .e1) State.reset = .next (after (.cge .e0 .e1) State.reset) :=
  ⟨exec_after _ _, exec_after _ _, exec_after _ _, exec_after _ _, exec_after _ _⟩
theorem witness_register_frame : Instr.muls .x0 .x0 ∈
    [.dec .x0 .e0, .decw .x0 .e0, .parse .x0, .neg .x0 .x0, .add .x0 .x0 .x0, .sub .x0 .x0 .x0, .muls .x0 .x0] := by simp
theorem witness_buffer_frame : Instr.max .e0 .e1 .e2 ∈ [.enc .e0 .x0, .min .e0 .e1 .e2, .max .e0 .e1 .e2] := by simp
theorem witness_comparison_frame : Instr.cge .e0 .e1 ∈ [.cmp .e0 .e1, .ceq .e0 .e1, .cne .e0 .e1, .clt .e0 .e1,
    .cle .e0 .e1, .cgt .e0 .e1, .cge .e0 .e1] := by simp
theorem witness_in_range_indices : ∀ t ∈ [Txn.wx 3 7 0, .rel 3, .reb 3 31, .rtb 254, .rob 77, .wob 77 0, .wcmd 0],
    t.inRange = true := by decide
theorem witness_out_of_range_indices : ∀ t ∈ [Txn.wx 4 0 0, .rx 0 8, .wel 4 0, .web 0 32 0, .reb 4 0, .wtb 255 0, .rob 78,
    .wob 78 0], t.inRange = false := by decide
theorem witness_write_e : (List.replicate 32 (0x11 : Byte)).length ≤ 32 := by decide
theorem witness_write_text : noteWT (List.replicate 255 0x31) =
    some (.wtl 255 :: (List.replicate 255 0x31).mapIdx fun k b => .wtb k b) := by decide +kernel

end Sys2Proof.Tests
end

/-! ## The group formatter writes the canonical decimal (41_text.md R125, R126) -/

namespace Sys2Proof.Machine

/-- The decimal characters of a number, most significant first; none for 0. -/
def decimalChars (n : Nat) : List Byte := (Nat.digits 10 n).reverse.map digitChar

theorem decimalChars_of_pos {n : Nat} (h : 0 < n) :
    decimalChars n = decimalChars (n / 10) ++ [digitChar (n % 10)] := by
  simp [decimalChars, Nat.digits_def' (by omega : 1 < 10) h]

/-- A padded group is zeros and then the number's own characters. -/
theorem paddedDigits_eq_zeros_append (w n : Nat) (h : n < 10 ^ w) :
    ∃ z, paddedDigits w n = List.replicate z charZero ++ decimalChars n := by
  induction w generalizing n with
  | zero =>
    obtain rfl : n = 0 := by simpa using h
    exact ⟨0, by simp [paddedDigits, decimalChars]⟩
  | succ w ih =>
    obtain ⟨z, hz⟩ := ih (n / 10) (by rw [pow_succ] at h; omega)
    rcases Nat.eq_zero_or_pos n with rfl | hn
    · refine ⟨z + 1, ?_⟩
      simp only [paddedDigits, hz, List.replicate_succ']
      simp [decimalChars, digitChar, charZero]
    · exact ⟨z, by rw [paddedDigits, hz, decimalChars_of_pos hn, List.append_assoc]⟩

theorem digitChar_eq_charZero {d : Nat} (hd : d < 10) (h : digitChar d = charZero) : d = 0 := by
  have hcode : (48 + d) % 256 = 48 := by simpa [digitChar, charZero] using congrArg BitVec.toNat h
  omega

/-- A number's own characters begin with no zero. -/
theorem dropWhile_zero_decimalChars (n : Nat) :
    (decimalChars n).dropWhile (· == charZero) = decimalChars n := by
  rw [List.dropWhile_eq_self_iff]
  intro hlen hzero
  have hn : n ≠ 0 := by rintro rfl; simp [decimalChars] at hlen
  have hlast := Nat.getLast_digit_ne_zero 10 hn
  have hlt := Nat.digits_lt_base (by omega : 1 < 10) (List.getLast_mem (Nat.digits_ne_nil_iff_ne_zero.mpr hn))
  refine hlast (digitChar_eq_charZero hlt ?_)
  simpa [decimalChars, List.getLast_eq_getElem] using hzero

/-- A padded group without its leading zeros is the number's own characters. -/
theorem dropWhile_zero_paddedDigits {w n : Nat} (h : n < 10 ^ w) :
    (paddedDigits w n).dropWhile (· == charZero) = decimalChars n := by
  obtain ⟨z, hz⟩ := paddedDigits_eq_zeros_append w n h
  have hzeros : ∀ c ∈ List.replicate z charZero, (c == charZero) = true := by simp
  rw [hz, List.dropWhile_append_of_pos hzeros, dropWhile_zero_decimalChars]

/-- Below a number that is not 0, its last `w` digits follow in full. -/
theorem decimalChars_append_paddedDigits (w : Nat) {n : Nat} (h : 0 < n / 10 ^ w) :
    decimalChars (n / 10 ^ w) ++ paddedDigits w (n % 10 ^ w) = decimalChars n := by
  induction w generalizing n with
  | zero => simp [paddedDigits]
  | succ w ih =>
    have hdiv : n / 10 ^ (w + 1) = n / 10 / 10 ^ w := by rw [Nat.div_div_eq_div_mul, pow_succ']
    have hmod : n % 10 ^ (w + 1) / 10 = n / 10 % 10 ^ w := by
      rw [pow_succ', Nat.mod_mul_right_div_self]
    have hlast : n % 10 ^ (w + 1) % 10 = n % 10 := Nat.mod_mod_of_dvd _ (dvd_pow_self 10 (by omega))
    have hn : 0 < n := Nat.pos_of_ne_zero (by rintro rfl; simp at h)
    rw [paddedDigits, hdiv, hmod, hlast, ← List.append_assoc, ih (hdiv ▸ h), ← decimalChars_of_pos hn]

theorem groupsText_append_singleton {gs : List Nat} (h : gs ≠ []) (g : Nat) :
    groupsText (gs ++ [g]) = groupsText gs ++ paddedDigits Config.chunk g := by
  cases gs with
  | nil => exact absurd rfl h
  | cons a gs => simp [groupsText, List.flatMap_append]

/-- Enough groups give the number's own characters. -/
theorem groupsText_decimalGroups (k m : Nat) (h : m < Config.group ^ k) :
    groupsText (decimalGroups k m).reverse = decimalChars m := by
  induction k generalizing m with
  | zero =>
    obtain rfl : m = 0 := by simpa using h
    simp [decimalGroups, groupsText, decimalChars]
  | succ k ih =>
    have hgroup : Config.group = 10 ^ Config.chunk := rfl
    have hlt : m / Config.group < Config.group ^ k := by
      rw [Nat.div_lt_iff_lt_mul (by decide)]; rwa [pow_succ] at h
    rw [decimalGroups, List.reverse_cons]
    split
    · next hq =>
      have hm : m < Config.group := by simpa using Nat.div_eq_zero_iff.mp hq
      simp only [List.reverse_nil, List.nil_append, groupsText, List.flatMap_nil, List.append_nil]
      rw [Nat.mod_eq_of_lt hm]
      exact dropWhile_zero_paddedDigits hm
    · next hq =>
      have hne : (decimalGroups k (m / Config.group)).reverse ≠ [] := by
        cases k with
        | zero => exact absurd (by simpa using hlt) hq
        | succ k => simp [decimalGroups]
      rw [groupsText_append_singleton hne, ih _ hlt]
      exact decimalChars_append_paddedDigits Config.chunk (Nat.pos_of_ne_zero hq)

/-- The unchecked magnitude of a Register is the absolute value of its integer (44_scalar.md R190). -/
theorem mag_eq_natAbs_val (x : Reg) : mag x = (val x).natAbs := by
  have := x.isLt
  rw [mag, sign, val, BitVec.msb_eq_decide, BitVec.toInt_eq_toNat_cond]
  simp only [decide_eq_true_eq]
  split <;> split <;> omega

theorem mag_le (x : Reg) : mag x ≤ 2 ^ 255 := by
  obtain ⟨hmin, hmax⟩ := (inRange_iff _).mp (inRange_val x)
  rw [mag_eq_natAbs_val]; omega

/-- The text FMT writes is the canonical decimal of the Register's integer (41_text.md R125, R126; log 13). -/
theorem formatGroups_eq_canonicalDecimal (x : Reg) : formatGroups x = canonicalDecimal (val x) := by
  have hgroups : mag x < Config.group ^ 9 := (mag_le x).trans_lt (by decide)
  have htext : groupsText (decimalGroups 9 (mag x)).reverse = decimalChars (val x).natAbs := by
    rw [groupsText_decimalGroups 9 _ hgroups, mag_eq_natAbs_val]
  simp only [formatGroups, canonicalDecimal, htext, decimalChars]

end Sys2Proof.Machine

/-! ## What the written destinations leave unchanged -/

namespace Sys2Proof.Machine

/-- The ways a command can write its destinations, whatever its mnemonic (10_state.md R22, R26, R28, R30, R34, R35). -/
inductive Writes (s : State) : State → Prop
  | register (d : XReg) (v : Reg) : Writes s (s.setX d v)
  | division (d a : XReg) (v : Reg) (h : s.scalar ≠ 0) :
    Writes s ((s.setX d v).setRem (BitVec.ofNat 32 (magDivMod (s.getX a) s.scalar).2))
  | buffer (d : EBuf) (bs : List Byte) : Writes s (s.writeBuf d bs)
  | selection (d : EBuf) (bs : List Byte) (c : Ordering) : Writes s ((s.writeBuf d bs).setCR c)
  | text (x : Reg) : Writes s (s.writeTout (formatGroups x))
  | comparison (c : Ordering) : Writes s (s.setCR c)
  | predicate (c : Ordering) (p : Bool) : Writes s ((s.setCR c).setT p)

theorem Wrote.writes {i : Instr} {s u : State} (h : Wrote i s u) : Writes s u := by
  cases i with
  | dec d | decw d | parse d | neg d | add d | sub d | muls d => obtain ⟨v, rfl⟩ := h; exact .register _ _
  | divs d a => obtain ⟨hs, v, rfl⟩ := h; exact .division _ _ _ hs
  | enc d a => cases h; exact .buffer _ _
  | min d a b | max d a b => obtain ⟨bs, -, -, rfl⟩ := h; exact .selection _ _ _
  | fmt a => cases h; exact .text _
  | cmp a b => cases h; exact .comparison _
  | ceq a b | cne a b | clt a b | cle a b | cgt a b | cge a b => obtain ⟨p, rfl⟩ := h; exact .predicate _ _

/-- No command writes the port. -/
theorem Writes.port {s u : State} (h : Writes s u) : u.port = s.port := by cases h <;> rfl

theorem Writes.cr {s u : State} (h : Writes s u) :
    u.status.cr = s.status.cr ∨ ∃ c, u.status.cr = crOf c := by
  cases h with
  | register | division | buffer | text => exact .inl rfl
  | selection _ _ c | comparison c | predicate c => exact .inr ⟨c, rfl⟩

theorem Writes.rem {s u : State} (h : Writes s u) :
    u.rem = s.rem ∨ ∃ x m, m ≠ 0 ∧ u.rem = BitVec.ofNat 32 (magDivMod x m).2 := by
  cases h with
  | division d a v hs => exact .inr ⟨_, _, hs, rfl⟩
  | register | buffer | selection | text | comparison | predicate => exact .inl rfl

theorem Writes.tout {s u : State} (h : Writes s u) :
    u.tout = s.tout ∨ ∃ x, u.tout = .ofBytes _ (formatGroups x) := by
  cases h with
  | text x => exact .inr ⟨x, rfl⟩
  | register | division | buffer | selection | comparison | predicate => exact .inl rfl

/-! ## Every step keeps a legal state legal -/

theorem Err.code_ne_unassigned (e : Err) : e.code ≠ 7 := by cases e <;> decide

theorem crOf_ne_unassigned (c : Ordering) : crOf c ≠ 0b10 := by cases c <;> decide

/-- The remainder by a scalar that is not 0 is at most 2^32 - 2 (44_scalar.md R192). -/
theorem toNat_divisionRemainder_le (x : Reg) {m : Word} (hm : m ≠ 0) :
    (BitVec.ofNat 32 (magDivMod x m).2).toNat ≤ 2 ^ 32 - 2 := by
  have hpos : 0 < m.toNat := Nat.pos_of_ne_zero fun h => hm (BitVec.eq_of_toNat_eq h)
  obtain ⟨-, hlt, -⟩ := divWords_spec hpos (magWords x).reverse 0 hpos
  have hmax := m.isLt
  simp only [magDivMod, BitVec.toNat_ofNat]
  omega

/-- A legal state stays legal where only what `Legal` does not speak of changes. -/
theorem State.Legal.congr {s t : State} (h : s.Legal) (hstatus : t.status = s.status) (hrem : t.rem = s.rem)
    (htout : t.tout = s.tout) : t.Legal where
  err_assigned := hstatus ▸ h.err_assigned
  cr_assigned := hstatus ▸ h.cr_assigned
  v_iff_overflow := hstatus ▸ h.v_iff_overflow
  rem_small := hrem ▸ h.rem_small
  tout_canonical := htout ▸ h.tout_canonical

theorem State.Legal.fail {s : State} (h : s.Legal) (e : Err) : (s.fail e).Legal where
  err_assigned := e.code_ne_unassigned
  cr_assigned := h.cr_assigned
  v_iff_overflow := e.code_spec.2.2
  rem_small := h.rem_small
  tout_canonical := h.tout_canonical

/-- The success of a command whose destinations were written on a legal state. -/
theorem State.Legal.succeed {s u : State} (h : s.Legal) (hw : Writes s u) : u.succeed.Legal where
  err_assigned := by simp
  cr_assigned := by
    rcases hw.cr with hcr | ⟨c, hcr⟩ <;> rw [succeed_status, hcr]
    · exact h.cr_assigned
    · exact crOf_ne_unassigned c
  v_iff_overflow := by simp
  rem_small := by
    rcases hw.rem with hrem | ⟨x, m, hm, hrem⟩ <;> rw [succeed_rem, hrem]
    · exact h.rem_small
    · exact toNat_divisionRemainder_le x hm
  tout_canonical := by
    rcases hw.tout with htout | ⟨x, htout⟩ <;> rw [succeed_tout, htout]
    · exact h.tout_canonical
    · exact .inr ⟨val x, inRange_val x, by rw [formatGroups_eq_canonicalDecimal]⟩

theorem State.Legal.exec {i : Instr} {s t : State} (h : s.Legal) (ht : exec i s = .next t) : t.Legal := by
  rcases exec_cases ht with ⟨e, -, rfl⟩ | ⟨u, hu, rfl⟩
  · exact h.fail e
  · exact h.succeed hu.writes

/-- Settles O18, field by field. -/
theorem resetIsLegal : Obligations.ResetIsLegal where
  err_assigned := by decide
  cr_assigned := by decide
  v_iff_overflow := by decide
  rem_small := by decide
  tout_canonical := .inl rfl

/-- Settles O19, by what a step can do: it idles, runs a command, raises IllegalCommand, moves data, or resets. -/
theorem stepKeepsLegal : Obligations.StepKeepsLegal := by
  intro s t h hstep
  rcases step_cases hstep with ⟨-, rfl⟩ | ⟨ev, rest, -, hcases⟩
  · exact h
  have haccept : (s.accept rest).Legal := h.congr rfl rfl rfl
  rcases hcases with ⟨w, i, -, -, hexec⟩ | ⟨w, e, -, -, rfl⟩ | ⟨x, -, hx, htransact⟩ | ⟨-, rfl⟩
  · exact haccept.exec hexec
  · exact haccept.fail _
  · rw [transact_data hx htransact]
    exact haccept.congr rfl rfl rfl
  · exact State.Legal.congr resetIsLegal rfl rfl rfl

end Sys2Proof.Machine

namespace Sys2Proof.Machine

/-! ## A transaction is refused exactly when an index is out of its range (10_state.md R40) -/

theorem isSome_writeByte {n : Nat} (b : Buffer n) (k : Nat) (v : Byte) :
    (b.writeByte k v).isSome = decide (k < n) := by
  by_cases h : k < n <;> simp [Buffer.writeByte, h]

theorem isSome_readByte {n : Nat} (b : Buffer n) (k : Nat) : (b.readByte k).isSome = decide (k < n) := by
  by_cases h : k < n <;> simp [Buffer.readByte, h]

theorem isSome_hostWriteX (s : State) (i j : Nat) (w : Word) :
    (s.hostWriteX i j w).isSome = (i ≤ 3 && j ≤ 7) := by
  rw [← xRegAt_isSome, State.hostWriteX]
  cases xRegAt i with
  | none => rfl
  | some r => by_cases hj : j < 8 <;> simp [hj] <;> omega

theorem isSome_hostReadX (s : State) (i j : Nat) : (s.hostReadX i j).isSome = (i ≤ 3 && j ≤ 7) := by
  rw [← xRegAt_isSome, State.hostReadX]
  cases xRegAt i with
  | none => rfl
  | some r => by_cases hj : j < 8 <;> simp [hj] <;> omega

theorem isSome_hostWriteELen (s : State) (i : Nat) (v : Byte) :
    (s.hostWriteELen i v).isSome = decide (i ≤ 3) := by
  rw [← eBufAt_isSome, State.hostWriteELen, Option.isSome_map]

theorem isSome_hostReadELen (s : State) (i : Nat) : (s.hostReadELen i).isSome = decide (i ≤ 3) := by
  rw [← eBufAt_isSome, State.hostReadELen, Option.isSome_map]

theorem isSome_hostWriteEByte (s : State) (i k : Nat) (v : Byte) :
    (s.hostWriteEByte i k v).isSome = (i ≤ 3 && k ≤ 31) := by
  rw [← eBufAt_isSome, State.hostWriteEByte]
  cases eBufAt i with
  | none => rfl
  | some b => simp [isSome_writeByte, Nat.lt_succ_iff]

theorem isSome_hostReadEByte (s : State) (i k : Nat) :
    (s.hostReadEByte i k).isSome = (i ≤ 3 && k ≤ 31) := by
  rw [← eBufAt_isSome, State.hostReadEByte]
  cases eBufAt i with
  | none => rfl
  | some b => simp [isSome_readByte, Nat.lt_succ_iff]

theorem isSome_hostWriteTin (s : State) (k : Nat) (v : Byte) :
    (s.hostWriteTin k v).isSome = decide (k ≤ 254) := by
  simp [State.hostWriteTin, isSome_writeByte, Nat.lt_succ_iff]

theorem isSome_hostWriteTout (s : State) (k : Nat) : (s.hostWriteTout k).isSome = decide (k ≤ 77) := by
  by_cases h : k < 78 <;> simp [State.hostWriteTout, h] <;> omega

/-- The outcome is a refusal or a next state, as the test says. -/
def RefusedUnless (inRange : Bool) (o : Host.Outcome State Fault Refusal) : Prop :=
  (inRange = false → o = .refused .noSuchTransaction) ∧ (inRange = true → ∃ u, o = .next u)

theorem RefusedUnless.written {b : Bool} {o : Option State} (h : o.isSome = b) :
    RefusedUnless b (written o) := by
  subst h
  cases o <;> simp [RefusedUnless]

theorem RefusedUnless.replied {b : Bool} {o : Option Reply} (s : State) (h : o.isSome = b) :
    RefusedUnless b (s.replied o) := by
  subst h
  cases o <;> simp [RefusedUnless]

theorem RefusedUnless.readByte {n : Nat} (s : State) (b : Buffer (n + 1)) (k : Nat) :
    RefusedUnless (k ≤ n) (s.replied ((b.readByte k).map .byte)) :=
  .replied s (by simp [isSome_readByte])

theorem RefusedUnless.next (u : State) : RefusedUnless true (.next u) := ⟨nofun, fun _ => ⟨u, rfl⟩⟩

/-- Settles O55, transaction by transaction: each one's option is there exactly when its indices are in range. -/
theorem refusedIffOutOfRange : Obligations.RefusedIffOutOfRange := by
  intro t s
  change RefusedUnless t.inRange (transact t s)
  cases t with
  | wx i j w => exact .written (isSome_hostWriteX s i j w)
  | rx i j => exact .replied s (isSome_hostReadX s i j)
  | wel i v => exact .written (isSome_hostWriteELen s i v)
  | rel i => exact .replied s (isSome_hostReadELen s i)
  | web i k v => exact .written (isSome_hostWriteEByte s i k v)
  | reb i k => exact .replied s (isSome_hostReadEByte s i k)
  | wtb k v => exact .written (isSome_hostWriteTin s k v)
  | rtb k => exact .readByte s s.tin k
  | rob k => exact .readByte s s.tout k
  | wob k v => exact .written (isSome_hostWriteTout s k)
  | wcmd w => exact ⟨fun h => by simp [Txn.inRange] at h, fun _ => runCommand_next w s⟩
  | ws | wtl | wrem | wol | wst | rs | rrem | rtl | rol | rst => exact .next _

/-! ## From a safe state no run stops -/

theorem exec_port {i : Instr} {s t : State} (h : exec i s = .next t) : t.port = s.port := by
  rcases exec_cases h with ⟨e, -, rfl⟩ | ⟨u, hu, rfl⟩
  · rfl
  · exact hu.writes.port

/-- A step takes one event off the port and adds none. -/
theorem step_port {s t : State} (h : step s = .next t) : t.port = s.port.tail := by
  rcases step_cases h with ⟨hport, rfl⟩ | ⟨ev, rest, hport, hcases⟩
  · simp [hport]
  rw [hport, List.tail_cons]
  rcases hcases with ⟨w, i, -, -, hexec⟩ | ⟨w, e, -, -, rfl⟩ | ⟨x, -, hx, htransact⟩ | ⟨-, rfl⟩
  · rw [exec_port hexec, State.accept_port]
  · rfl
  · rw [transact_data hx htransact]; rfl
  · rfl

/-- Only a transaction that does not exist stops a step. -/
theorem step_next {s : State} (h : ∀ ev ∈ s.port, ev.inRange = true) : ∃ t, step s = .next t := by
  unfold step nextEvent
  split
  · exact ⟨_, rfl⟩
  · next ev rest hport =>
    have hev : ev.inRange = true := h ev (by simp [hport])
    cases ev with
    | txn x => exact (refusedIffOutOfRange x _).2 hev
    | reset | resetDuring => exact ⟨_, rfl⟩

theorem State.Safe.step {s : State} (h : s.Safe) : ∃ t, step s = .next t ∧ t.Safe := by
  obtain ⟨t, ht⟩ := step_next h.port_exists
  refine ⟨t, ht, stepKeepsLegal s t h.legal ht, fun ev hev => h.port_exists ev ?_⟩
  rw [step_port ht] at hev
  exact List.mem_of_mem_tail hev

theorem run_succ_of_step {M : Host.Core} {n : Nat} {s t : M.State} (h : M.step s = .next t) :
    M.run (n + 1) s = M.run n t := by
  simp [Host.Core.run, h]

/-- Settles O20, by induction on the number of steps. -/
theorem safeRunsNeverStop : Obligations.SafeRunsNeverStop := by
  intro n
  induction n with
  | zero => exact fun s h => ⟨s, rfl, h⟩
  | succ n ih =>
    intro s h
    obtain ⟨t, ht, hsafe⟩ := h.step
    obtain ⟨u, hu, hu_safe⟩ := ih t hsafe
    exact ⟨u, (run_succ_of_step (M := core) ht).trans hu, hu_safe⟩

end Sys2Proof.Machine

namespace Sys2Proof.Machine

/-! ## What commands leave unchanged (10_state.md R22, R26; 60_exceptions.md R214, R215) -/

theorem exec_registerWriter {d a b : XReg} {c : EBuf} {i : Instr} {s t : State}
    (hi : i ∈ [.dec d c, .decw d c, .parse d, .neg d a, .add d a b, .sub d a b, .muls d a])
    (h : exec i s = .next t) : (∃ e, t = s.fail e) ∨ ∃ v, t = (s.setX d v).succeed := by
  rcases exec_cases h with ⟨e, -, rfl⟩ | ⟨u, hu, rfl⟩
  · exact .inl ⟨e, rfl⟩
  have hwrote : ∃ v, u = s.setX d v := by
    simp only [List.mem_cons, List.not_mem_nil, or_false] at hi
    rcases hi with rfl | rfl | rfl | rfl | rfl | rfl | rfl <;> exact hu
  obtain ⟨v, rfl⟩ := hwrote
  exact .inr ⟨v, rfl⟩

/-- Settles O50, by the two ends of a command that writes one Register. -/
theorem registerWritersFrame : Obligations.RegisterWritersFrame := by
  intro d a b c i s t hi h
  rcases exec_registerWriter hi h with ⟨e, rfl⟩ | ⟨v, rfl⟩
  · exact ⟨fun _ _ => rfl, rfl, rfl, rfl, rfl, rfl, rfl, rfl, rfl, rfl⟩
  · exact ⟨fun _ hr => s.getX_setX_of_ne v hr, rfl, rfl, rfl, rfl, rfl, rfl, rfl, rfl, rfl⟩

theorem exec_divs {d a : XReg} {s t : State} (h : exec (.divs d a) s = .next t) :
    (∃ e, t = s.fail e) ∨ ∃ v r, t = ((s.setX d v).setRem r).succeed := by
  rcases exec_cases h with ⟨e, -, rfl⟩ | ⟨u, ⟨-, v, rfl⟩, rfl⟩
  · exact .inl ⟨e, rfl⟩
  · exact .inr ⟨v, _, rfl⟩

/-- Settles O51, by the two ends of DIVS. -/
theorem divsFrame : Obligations.DivsFrame := by
  intro d a s t h
  rcases exec_divs h with ⟨e, rfl⟩ | ⟨v, r, rfl⟩
  · exact ⟨fun _ _ => rfl, rfl, rfl, rfl, rfl, rfl, rfl, rfl, rfl⟩
  · exact ⟨fun _ hr => s.getX_setX_of_ne v hr, rfl, rfl, rfl, rfl, rfl, rfl, rfl, rfl⟩

theorem exec_bufferWriter {d b c : EBuf} {a : XReg} {i : Instr} {s t : State}
    (hi : i ∈ [.enc d a, .min d b c, .max d b c]) (h : exec i s = .next t) :
    (∃ e, t = s.fail e) ∨ (∃ bs, t = (s.writeBuf d bs).succeed) ∨
      i ≠ .enc d a ∧ ∃ bs o, t = ((s.writeBuf d bs).setCR o).succeed := by
  rcases exec_cases h with ⟨e, -, rfl⟩ | ⟨u, hu, rfl⟩
  · exact .inl ⟨e, rfl⟩
  simp only [List.mem_cons, List.not_mem_nil, or_false] at hi
  rcases hi with rfl | rfl | rfl
  · cases hu
    exact .inr (.inl ⟨_, rfl⟩)
  all_goals
    obtain ⟨bs, -, -, rfl⟩ := hu
    exact .inr (.inr ⟨nofun, bs, _, rfl⟩)

/-- Settles O52, by the ends of a command that writes one buffer: ENC keeps CR, MIN and MAX write it. -/
theorem bufferWritersFrame : Obligations.BufferWritersFrame := by
  intro d b c a i s t hi h
  rcases exec_bufferWriter hi h with ⟨e, rfl⟩ | ⟨bs, rfl⟩ | ⟨henc, bs, o, rfl⟩
  · exact ⟨fun _ _ => rfl, rfl, rfl, rfl, rfl, rfl, fun _ => rfl, rfl, rfl, rfl⟩
  · exact ⟨fun _ hr => s.getE_setE_of_ne _ hr, rfl, rfl, rfl, rfl, rfl, fun _ => rfl, rfl, rfl, rfl⟩
  · exact ⟨fun _ hr => s.getE_setE_of_ne _ hr, rfl, rfl, rfl, rfl, rfl, fun hi => absurd hi henc, rfl, rfl, rfl⟩

theorem exec_fmt {a : XReg} {s t : State} (h : exec (.fmt a) s = .next t) :
    (∃ e, t = s.fail e) ∨ ∃ text, t = (s.writeTout text).succeed := by
  rcases exec_cases h with ⟨e, -, rfl⟩ | ⟨u, rfl, rfl⟩
  · exact .inl ⟨e, rfl⟩
  · exact .inr ⟨_, rfl⟩

/-- Settles O53, by the two ends of FMT. -/
theorem fmtFrame : Obligations.FmtFrame := by
  intro a s t h
  rcases exec_fmt h with ⟨e, rfl⟩ | ⟨text, rfl⟩
  · exact ⟨rfl, rfl, rfl, rfl, rfl, rfl, rfl, rfl, rfl⟩
  · exact ⟨rfl, rfl, rfl, rfl, rfl, rfl, rfl, rfl, rfl⟩

theorem exec_comparison {a b : EBuf} {i : Instr} {s t : State}
    (hi : i ∈ [.cmp a b, .ceq a b, .cne a b, .clt a b, .cle a b, .cgt a b, .cge a b])
    (h : exec i s = .next t) :
    (∃ e, t = s.fail e) ∨ (∃ c, t = (s.setCR c).succeed) ∨
      i ≠ .cmp a b ∧ ∃ c p, t = ((s.setCR c).setT p).succeed := by
  rcases exec_cases h with ⟨e, -, rfl⟩ | ⟨u, hu, rfl⟩
  · exact .inl ⟨e, rfl⟩
  simp only [List.mem_cons, List.not_mem_nil, or_false] at hi
  rcases hi with rfl | rfl | rfl | rfl | rfl | rfl | rfl
  · cases hu
    exact .inr (.inl ⟨_, rfl⟩)
  all_goals
    obtain ⟨p, rfl⟩ := hu
    exact .inr (.inr ⟨nofun, _, p, rfl⟩)

/-- Settles O54, by the ends of a comparison: CMP keeps T, the predicates write it. -/
theorem comparisonsFrame : Obligations.ComparisonsFrame := by
  intro a b i s t hi h
  rcases exec_comparison hi h with ⟨e, rfl⟩ | ⟨c, rfl⟩ | ⟨hcmp, c, p, rfl⟩
  · exact ⟨rfl, rfl, rfl, rfl, rfl, rfl, fun _ => rfl, rfl, rfl⟩
  · exact ⟨rfl, rfl, rfl, rfl, rfl, rfl, fun _ => rfl, rfl, rfl⟩
  · exact ⟨rfl, rfl, rfl, rfl, rfl, rfl, fun hi => absurd hi hcmp, rfl, rfl⟩

end Sys2Proof.Machine

namespace Sys2Proof.Machine

/-! ## No command reads a buffer's bytes at or above its LEN (10_state.md R25) -/

/-- The bytes within the length are all that two buffers of one length must share below it. -/
theorem Buffer.contents_eq_iff {n : Nat} {b c : Buffer n} (hlen : b.len = c.len) :
    b.contents = c.contents ↔ ∀ k < b.len.toNat, b.data.toList[k]? = c.data.toList[k]? := by
  simp only [List.ext_getElem?_iff, Buffer.contents, ← hlen, List.getElem?_take]
  exact forall_congr' fun k => by by_cases hk : k < b.len.toNat <;> simp [hk]

/-- Two states that differ only in encoded buffers' bytes at or above their LEN. -/
structure AgreeBelowLen (s s' : State) : Prop where
  rest : s' = { s with e := s'.e }
  len : ∀ b, (s.getE b).len = (s'.getE b).len
  contents : ∀ b, (s.getE b).contents = (s'.getE b).contents

theorem agreeBelowLen_iff {s s' : State} :
    AgreeBelowLen s s' ↔ s' = { s with e := s'.e } ∧ ∀ b, (s.getE b).len = (s'.getE b).len ∧
      ∀ k < (s.getE b).len.toNat, (s.getE b).data.toList[k]? = (s'.getE b).data.toList[k]? := by
  constructor
  · rintro ⟨hrest, hlen, hcontents⟩
    exact ⟨hrest, fun b => ⟨hlen b, (Buffer.contents_eq_iff (hlen b)).mp (hcontents b)⟩⟩
  · rintro ⟨hrest, h⟩
    exact ⟨hrest, fun b => (h b).1, fun b => (Buffer.contents_eq_iff (h b).1).mpr (h b).2⟩

/-- Two results of a command that are the same error, or states that agree. -/
inductive ResultsAgree : Except Err State → Except Err State → Prop
  | error (e : Err) : ResultsAgree (.error e) (.error e)
  | ok {u u' : State} (h : AgreeBelowLen u u') : ResultsAgree (.ok u) (.ok u')

namespace AgreeBelowLen

variable {s s' : State}

/-- An update that leaves the buffers alone, and acts on the rest whatever the buffers hold, keeps the agreement. -/
theorem update (h : AgreeBelowLen s s') (f : State → State) (he : ∀ s, (f s).e = s.e)
    (hf : ∀ e, f { s with e := e } = { f s with e := e }) : AgreeBelowLen (f s) (f s') where
  rest := by rw [he s', ← hf, ← h.rest]
  len b := by rw [State.getE_congr (he s), State.getE_congr (he s')]; exact h.len b
  contents b := by rw [State.getE_congr (he s), State.getE_congr (he s')]; exact h.contents b

theorem setE (h : AgreeBelowLen s s') (d : EBuf) (buf : Buffer Config.maxLen) :
    AgreeBelowLen (s.setE d buf) (s'.setE d buf) where
  rest := by rw [h.rest]; rfl
  len b := by
    by_cases hb : b = d
    · subst hb; simp
    · simp only [State.getE_setE_of_ne _ _ hb, h.len b]
  contents b := by
    by_cases hb : b = d
    · subst hb; simp
    · simp only [State.getE_setE_of_ne _ _ hb, h.contents b]

theorem setX (h : AgreeBelowLen s s') (d : XReg) (v : Reg) : AgreeBelowLen (s.setX d v) (s'.setX d v) :=
  h.update (·.setX d v) (fun _ => rfl) (fun _ => rfl)

theorem setRem (h : AgreeBelowLen s s') (r : Word) : AgreeBelowLen (s.setRem r) (s'.setRem r) :=
  h.update (·.setRem r) (fun _ => rfl) (fun _ => rfl)

theorem writeTout (h : AgreeBelowLen s s') (text : List Byte) :
    AgreeBelowLen (s.writeTout text) (s'.writeTout text) :=
  h.update (·.writeTout text) (fun _ => rfl) (fun _ => rfl)

theorem setCR (h : AgreeBelowLen s s') (c : Ordering) : AgreeBelowLen (s.setCR c) (s'.setCR c) :=
  h.update (·.setCR c) (fun _ => rfl) (fun _ => rfl)

theorem setT (h : AgreeBelowLen s s') (p : Bool) : AgreeBelowLen (s.setT p) (s'.setT p) :=
  h.update (·.setT p) (fun _ => rfl) (fun _ => rfl)

theorem fail (h : AgreeBelowLen s s') (e : Err) : AgreeBelowLen (s.fail e) (s'.fail e) :=
  h.update (·.fail e) (fun _ => rfl) (fun _ => rfl)

theorem succeed (h : AgreeBelowLen s s') : AgreeBelowLen s.succeed s'.succeed :=
  h.update State.succeed (fun _ => rfl) (fun _ => rfl)

theorem getX (h : AgreeBelowLen s s') (r : XReg) : s'.getX r = s.getX r := by rw [h.rest]; rfl

theorem scalar (h : AgreeBelowLen s s') : s'.scalar = s.scalar := by rw [h.rest]

theorem tinText (h : AgreeBelowLen s s') : s'.tinText = s.tinText := by rw [h.rest]; rfl

theorem readEnc (h : AgreeBelowLen s s') (b : EBuf) : readEnc s' b = readEnc s b := by
  simp only [Machine.readEnc, ← h.len b, ← h.contents b]

theorem readPair (h : AgreeBelowLen s s') (a b : EBuf) : readPair s' a b = readPair s a b := by
  simp only [Machine.readPair, h.readEnc]

/-- Commands with results that agree end in states that agree. -/
theorem commit (h : AgreeBelowLen s s') {r r' : Except Err State} (hr : ResultsAgree r r') :
    ∃ t t', commit s r = .next t ∧ commit s' r' = .next t' ∧ AgreeBelowLen t t' := by
  cases hr with
  | error e => exact ⟨_, _, rfl, rfl, h.fail e⟩
  | ok hu => exact ⟨_, _, rfl, rfl, hu.succeed⟩

theorem comparePredicate (h : AgreeBelowLen s s') (truth : Ordering → Bool) (a b : EBuf) :
    ∃ t t', comparePredicate truth a b s = .next t ∧ comparePredicate truth a b s' = .next t' ∧
      AgreeBelowLen t t' := by
  refine h.commit ?_
  rw [h.readPair]
  cases Machine.readPair s a b with
  | error e => exact .error e
  | ok p => exact .ok ((h.setCR _).setT _)

theorem compareSelect (h : AgreeBelowLen s s') (pickB : Ordering) (d a b : EBuf) :
    ∃ t t', compareSelect pickB d a b s = .next t ∧ compareSelect pickB d a b s' = .next t' ∧
      AgreeBelowLen t t' := by
  refine h.commit ?_
  rw [h.readPair]
  cases Machine.readPair s a b with
  | error e => exact .error e
  | ok p => exact .ok ((h.setE d _).setCR _)

/-- An arithmetic command writes the value it computes, unless it overflows. -/
theorem ite_setX (h : AgreeBelowLen s s') (overflows : Bool) (e : Err) (d : XReg) (v : Reg) :
    ResultsAgree (if overflows then .error e else .ok (s.setX d v))
      (if overflows then .error e else .ok (s'.setX d v)) := by
  cases overflows with
  | true => exact .error e
  | false => exact .ok (h.setX d v)

theorem exec (h : AgreeBelowLen s s') (i : Instr) :
    ∃ t t', exec i s = .next t ∧ exec i s' = .next t' ∧ AgreeBelowLen t t' := by
  cases i with
  | dec d a =>
    refine h.commit ?_
    rw [h.readEnc]
    cases Machine.readEnc s a with
    | error e => exact .error e
    | ok bs => exact .ok (h.setX d _)
  | decw d a =>
    refine h.commit ?_
    rw [h.readEnc]
    cases Machine.readEnc s a with
    | error e => exact .error e
    | ok bs =>
      cases hwire : wireCheckPasses bs with
      | true => simpa [hwire] using .ok (h.setX d _)
      | false => simpa [hwire] using .error _
  | enc d a => exact h.commit (.ok (by rw [h.getX]; exact h.setE d _))
  | parse d =>
    refine h.commit ?_
    rw [h.tinText]
    cases parseText s.tinText with
    | error e => exact .error e
    | ok x => exact .ok (h.setX d x)
  | fmt a => exact h.commit (.ok (by rw [h.getX]; exact h.writeTout _))
  | cmp a b =>
    refine h.commit ?_
    rw [h.readPair]
    cases Machine.readPair s a b with
    | error e => exact .error e
    | ok p => exact .ok (h.setCR _)
  | ceq a b | cne a b | clt a b | cle a b | cgt a b | cge a b => exact h.comparePredicate _ a b
  | min d a b | max d a b => exact h.compareSelect _ d a b
  | neg d a => exact h.commit (by rw [h.getX]; exact h.ite_setX _ _ d _)
  | add d a b | sub d a b => exact h.commit (by rw [h.getX, h.getX]; exact h.ite_setX _ _ d _)
  | muls d a => exact h.commit (by rw [h.getX, h.scalar]; exact h.ite_setX _ _ d _)
  | divs d a =>
    refine h.commit ?_
    simp only [h.getX, h.scalar]
    split
    · exact .error _
    · exact .ok ((h.setX d _).setRem _)

end AgreeBelowLen

/-- Settles O11: every command's operands are the same in both states, and what it writes keeps them in agreement. -/
theorem bytesBeyondLengthAreNotRead : Obligations.BytesBeyondLengthAreNotRead := by
  intro i s s' hbufs hrest
  obtain ⟨t, t', ht, ht', hagree⟩ := (agreeBelowLen_iff.mpr ⟨hrest, hbufs⟩).exec i
  obtain ⟨hrest', hbufs'⟩ := agreeBelowLen_iff.mp hagree
  exact ⟨t, t', ht, ht', hrest', hbufs'⟩

end Sys2Proof.Machine

namespace Sys2Proof.Machine

/-! ## The host's reads and writes (10_state.md R40, R41) -/

theorem hostReadX_index (s : State) (r : XReg) {j : Nat} (hj : j < 8) :
    s.hostReadX r.index.toNat j = some (.word (word (s.getX r) j)) := by
  simp [State.hostReadX, hj]

theorem readByte_of_lt {n : Nat} (b : Buffer n) {k : Nat} (hk : k < n) : b.readByte k = some b.data[k] := by
  simp [Buffer.readByte, hk]

theorem hostReadEByte_index (s : State) (b : EBuf) {k : Nat} (hk : k < 32) :
    s.hostReadEByte b.index.toNat k = some (.byte (s.getE b).data[k]) := by
  simp [State.hostReadEByte, readByte_of_lt _ hk]

/-- Settles O56, read by read. -/
theorem readsGiveTheField : Obligations.ReadsGiveTheField := by
  intro s
  refine ⟨fun r j hj => ?_, fun b => ?_, fun b k hk => ?_, rfl, rfl, rfl, fun k hk => ?_, rfl, fun k hk => ?_, rfl⟩
  · rw [transact, hostReadX_index s r hj]; rfl
  · rw [transact, State.hostReadELen, eBufAt_index]; rfl
  · rw [transact, hostReadEByte_index s b hk]; rfl
  · rw [transact, readByte_of_lt s.tin hk]; rfl
  · rw [transact, readByte_of_lt s.tout hk]; rfl

/-- A Register with one word replaced has that word, and its other words as before. -/
theorem word_setWord (x : Reg) (w : Word) {j j' : Nat} (hj : j < 8) (hj' : j' < 8) :
    word (setWord x j w) j' = if j' = j then w else word x j' := by
  have hlen : ((words x).set j w).length = 8 := by simp
  rw [setWord, word_ofWords hlen j' hj', List.getD_eq_getElem?_getD, List.getElem?_set, length_words]
  by_cases h : j' = j
  · simp [h, hj]
  · simp [h, Ne.symm h, words_getElem? x j' hj']

/-- A buffer with one data byte replaced keeps its length and its other bytes. -/
theorem writeByte_spec {n : Nat} (b : Buffer n) {k : Nat} (v : Byte) (hk : k < n) :
    ∃ c : Buffer n, b.writeByte k v = some c ∧ c.len = b.len ∧
      ∀ k' < n, c.data.toList[k']? = if k' = k then some v else b.data.toList[k']? := by
  refine ⟨{ b with data := b.data.set k v hk }, by simp [Buffer.writeByte, hk], rfl, fun k' hk' => ?_⟩
  rw [Vector.toList_set, List.getElem?_set]
  by_cases h : k' = k
  · simp [h, hk]
  · simp [h, Ne.symm h]

/-- Settles O57, write by write: a word of a Register, a byte of a buffer, or a field whole. -/
theorem writesChangeOneField : Obligations.WritesChangeOneField := by
  intro s
  refine ⟨fun r j w hj => ⟨setWord (s.getX r) j w, ?_, fun j' hj' => word_setWord _ w hj hj'⟩, fun b v => ?_,
    fun b k v hk => ?_, fun _ => rfl, fun _ => rfl, fun k v hk => ?_⟩
  · simp [transact, State.hostWriteX, hj, State.setX]
  · simp [transact, State.hostWriteELen, State.setE]
  · obtain ⟨buf, hbuf, hlen, hdata⟩ := writeByte_spec (s.getE b) v hk
    exact ⟨buf, by simp [transact, State.hostWriteEByte, hbuf, State.setE], hlen, hdata⟩
  · obtain ⟨buf, hbuf, hlen, hdata⟩ := writeByte_spec s.tin v hk
    exact ⟨buf, by simp [transact, State.hostWriteTin, hbuf], hlen, hdata⟩

/-- Settles O58. -/
theorem readOnlyWritesChangeNothing : Obligations.ReadOnlyWritesChangeNothing := by
  intro s w v
  refine ⟨rfl, rfl, rfl, fun k hk => ?_⟩
  rw [transact, State.hostWriteTout, if_pos hk, written_some]

/-! ## The command presented next (10_state.md R37) -/

theorem decodeTableWord_eq_some {nbits w : Nat} {i : Instr} (h : decodeTableWord nbits w = some i) :
    decode (tableWord nbits w) = .ok i := by
  unfold decodeTableWord at h
  split at h
  · next hd => cases h; exact hd
  · cases h

theorem step_withFetchWord (s : State) (nbits w : Nat) :
    step (s.withFetchWord nbits w) = runCommand (tableWord nbits w) { s with resp := none } := rfl

/-- Settles O8: the presented word is at the head of the port, and it decodes to the command. -/
theorem presentedWordRunsNext : Obligations.PresentedWordRunsNext := by
  intro s nbits w i h
  rw [step_withFetchWord, runCommand_ok (decodeTableWord_eq_some h)]

/-! ## The word of STATUS (10_state.md R31) -/

/-- STATUS has 2^7 values, and each has its fields at their bits of the word. -/
theorem statusWord_fields : ∀ (err : BitVec 3) (v : Bool) (cr : BitVec 2) (t : Bool),
    let w := Status.word ⟨err, v, cr, t⟩
    w.extractLsb' 0 3 = err ∧ w.getLsbD 3 = v ∧ w.extractLsb' 4 2 = cr ∧ w.getLsbD 6 = t ∧
      w.extractLsb' 7 25 = 0 := by
  decide

/-- Settles O14, by the layout of every STATUS word. -/
theorem statusWordLayout : Obligations.StatusWordLayout :=
  fun s => ⟨rfl, statusWord_fields s.status.err s.status.v s.status.cr s.status.t⟩

/-! ## Reset (10_state.md R42) -/

theorem getX_reset (r : XReg) : State.reset.getX r = 0 := by cases r <;> rfl

theorem getE_reset (b : EBuf) : State.reset.getE b = .reset _ := by cases b <;> rfl

theorem data_reset_getElem? {n k : Nat} (hk : k < n) : (Buffer.reset n).data.toList[k]? = some 0 := by
  simp [Buffer.reset, hk]

theorem statusWord_reset : State.reset.status.word = 0 := by decide

/-- A reset leaves the reset state, whether between transactions or during one. -/
theorem step_reset {s : State} {ev : Event} {x : Txn} {rest : List Event} (hev : ev = .reset ∨ ev = .resetDuring x)
    (hport : s.port = ev :: rest) : step s = .next { State.reset with port := rest } := by
  rw [step, nextEvent, hport]
  rcases hev with rfl | rfl <;> rfl

/-- Settles O15: the state after either reset event is the reset state but for its port. -/
theorem resetGivesTableValues : Obligations.ResetGivesTableValues := by
  intro s ev x rest hev hport
  refine ⟨_, step_reset hev hport, fun r j _ => ?_, fun b => ?_, rfl, rfl, rfl, fun k hk => data_reset_getElem? hk,
    rfl, fun k hk => data_reset_getElem? hk, ?_⟩
  · change word (State.reset.getX r) j = 0
    rw [getX_reset]
    simp [word]
  · change (State.reset.getE b).len = 0 ∧ ∀ k < 32, (State.reset.getE b).data.toList[k]? = some 0
    rw [getE_reset]
    exact ⟨rfl, fun k hk => data_reset_getElem? hk⟩
  · exact statusWord_reset

/-! ## The bytes a command reads (10_state.md R25, R29) -/

theorem Buffer.contents_getElem? {n : Nat} (b : Buffer n) {k : Nat} (hk : k < b.len.toNat) :
    b.contents[k]? = b.data.toList[k]? := by
  rw [contents, List.getElem?_take, if_pos hk]

/-- Settles O21: what is read is the buffer's contents, the data bytes below its length. -/
theorem operandBytesAreTheData : Obligations.OperandBytesAreTheData := by
  intro s
  have htin : s.tin.len.toNat ≤ Config.tinMax := Nat.le_of_lt_succ s.tin.len.isLt
  refine ⟨fun b => ⟨readEnc_of_lt, fun hb => ⟨_, readEnc_of_le hb, ?_, fun k hk => ?_⟩⟩, ?_, fun k hk => ?_⟩
  · exact Buffer.length_contents _ hb
  · rw [Buffer.length_contents _ hb] at hk
    exact Buffer.contents_getElem? _ hk
  · exact Buffer.length_contents _ htin
  · exact Buffer.contents_getElem? _ hk

end Sys2Proof.Machine

namespace Sys2Proof

/-! ## A command word is its five fields (30_encoding.md R81) -/

/-- The fields cover the word. -/
theorem word_eq_iff_fields {v w : Word} :
    v = w ↔ rsvField v = rsvField w ∧ opField v = opField w ∧ dField v = dField w ∧ aField v = aField w ∧
      bField v = bField w := by
  refine ⟨by rintro rfl; simp, fun ⟨hrsv, hop, hd, ha, hb⟩ => BitVec.eq_of_toNat_eq ?_⟩
  simp only [rsvField, opField, dField, aField, bField, ← BitVec.toNat_inj, BitVec.extractLsb'_toNat,
    Nat.shiftRight_eq_div_pow] at hrsv hop hd ha hb
  omega

/-- The bits of a command word, field by field from the low end. -/
theorem getLsbD_commandWord (op : BitVec 8) (d a b : BitVec 2) (k : Nat) :
    (commandWord op d a b).getLsbD k =
      if k < 8 then op.getLsbD k else if k < 10 then d.getLsbD (k - 8) else if k < 12 then a.getLsbD (k - 10)
      else b.getLsbD (k - 12) := by
  simp only [commandWord, BitVec.getLsbD_or, BitVec.getLsbD_shiftLeft, BitVec.getLsbD_setWidth]
  grind

theorem commandWord_fields (op : BitVec 8) (d a b : BitVec 2) :
    rsvField (commandWord op d a b) = 0 ∧ opField (commandWord op d a b) = op ∧ dField (commandWord op d a b) = d ∧
      aField (commandWord op d a b) = a ∧ bField (commandWord op d a b) = b := by
  refine ⟨?_, ?_, ?_, ?_, ?_⟩ <;> ext k hk <;>
    grind [rsvField, opField, dField, aField, bField, getLsbD_commandWord]

/-- R81 read backwards. -/
theorem eq_commandWord_iff {w : Word} {op : BitVec 8} {d a b : BitVec 2} :
    w = commandWord op d a b ↔ rsvField w = 0 ∧ opField w = op ∧ dField w = d ∧ aField w = a ∧ bField w = b := by
  obtain ⟨hrsv, hop, hd, ha, hb⟩ := commandWord_fields op d a b
  rw [word_eq_iff_fields, hrsv, hop, hd, ha, hb]

theorem fields_and (v w : Word) :
    rsvField (v &&& w) = rsvField v &&& rsvField w ∧ opField (v &&& w) = opField v &&& opField w ∧
      dField (v &&& w) = dField v &&& dField w ∧ aField (v &&& w) = aField v &&& aField w ∧
      bField (v &&& w) = bField v &&& bField w := by
  simp [rsvField, opField, dField, aField, bField, BitVec.extractLsb'_and]

/-! ## The rows of the opcode map (R83, R85) -/

theorem fieldOk_iff {c : FieldClass} {f : BitVec 2} : fieldOk c f = true ↔ (c = .unused → f = 0) := by
  cases c <;> simp [fieldOk]

/-- R85 for the three index fields of a command with this row. -/
def OpRow.fieldsOk (r : OpRow) (d a b : BitVec 2) : Bool := fieldOk r.d d && fieldOk r.a a && fieldOk r.b b

theorem OpRow.fieldsOk_iff {r : OpRow} {d a b : BitVec 2} :
    r.fieldsOk d a b = true ↔ fieldOk r.d d = true ∧ fieldOk r.a a = true ∧ fieldOk r.b b = true := by
  simp [fieldsOk, and_assoc]

/-- R85 as its list of violations. -/
theorem OpRow.fieldsOk_eq_false_iff {r : OpRow} {d a b : BitVec 2} :
    r.fieldsOk d a b = false ↔
      (r.d = .unused ∧ d ≠ 0) ∨ (r.a = .unused ∧ a ≠ 0) ∨ (r.b = .unused ∧ b ≠ 0) := by
  rw [Bool.eq_false_iff, ne_eq, fieldsOk_iff, fieldOk_iff, fieldOk_iff, fieldOk_iff]
  tauto

theorem rowOf_eq_some_iff {c : BitVec 8} {r : OpRow} : rowOf c = some r ↔ r ∈ opcodeMap ∧ r.code = c := by
  have hfind : ∀ r ∈ opcodeMap, rowOf r.code = some r := by decide
  refine ⟨fun h => ⟨List.mem_of_find?_eq_some h, by simpa using List.find?_some h⟩, ?_⟩
  rintro ⟨hr, rfl⟩
  exact hfind r hr

@[simp] theorem XReg.index_ofIndex (f : BitVec 2) : (XReg.ofIndex f).index = f := by
  revert f; decide

@[simp] theorem EBuf.index_ofIndex (f : BitVec 2) : (EBuf.ofIndex f).index = f := by
  revert f; decide

/-- A row's commands are encoded as its opcode and their index fields. -/
theorem encode_build : ∀ r ∈ opcodeMap, ∀ d a b, r.fieldsOk d a b = true →
    encode (r.op.build d a b) = commandWord r.code d a b := by
  simp +contextual [opcodeMap, Opcode.build, encode, OpRow.fieldsOk, fieldOk]

/-- The command `i` is the row's one with these index fields, which are zero where the row does not use them. -/
def OpRow.Builds (r : OpRow) (d a b : BitVec 2) (i : Instr) : Prop :=
  r.fieldsOk d a b = true ∧ r.op.build d a b = i

/-- Every command is built from a row of R83. -/
theorem exists_row_builds (i : Instr) : ∃ r ∈ opcodeMap, ∃ d a b, r.Builds d a b i := by
  have row (c : BitVec 8) (d a b : BitVec 2) {r : OpRow} (hc : rowOf c = some r) (hf : r.fieldsOk d a b = true)
      (hi : r.op.build d a b = i) : ∃ r ∈ opcodeMap, ∃ d a b, r.Builds d a b i :=
    ⟨r, (rowOf_eq_some_iff.mp hc).1, d, a, b, hf, hi⟩
  cases i with
  | dec d a => exact row 0x01 d.index a.index 0 rfl rfl (by simp [Opcode.build])
  | decw d a => exact row 0x02 d.index a.index 0 rfl rfl (by simp [Opcode.build])
  | enc d a => exact row 0x03 d.index a.index 0 rfl rfl (by simp [Opcode.build])
  | parse d => exact row 0x10 d.index 0 0 rfl rfl (by simp [Opcode.build])
  | fmt a => exact row 0x11 0 a.index 0 rfl rfl (by simp [Opcode.build])
  | cmp a b => exact row 0x20 0 a.index b.index rfl rfl (by simp [Opcode.build])
  | ceq a b => exact row 0x21 0 a.index b.index rfl rfl (by simp [Opcode.build])
  | cne a b => exact row 0x22 0 a.index b.index rfl rfl (by simp [Opcode.build])
  | clt a b => exact row 0x23 0 a.index b.index rfl rfl (by simp [Opcode.build])
  | cle a b => exact row 0x24 0 a.index b.index rfl rfl (by simp [Opcode.build])
  | cgt a b => exact row 0x25 0 a.index b.index rfl rfl (by simp [Opcode.build])
  | cge a b => exact row 0x26 0 a.index b.index rfl rfl (by simp [Opcode.build])
  | min d a b => exact row 0x27 d.index a.index b.index rfl rfl (by simp [Opcode.build])
  | max d a b => exact row 0x28 d.index a.index b.index rfl rfl (by simp [Opcode.build])
  | neg d a => exact row 0x30 d.index a.index 0 rfl rfl (by simp [Opcode.build])
  | add d a b => exact row 0x31 d.index a.index b.index rfl rfl (by simp [Opcode.build])
  | sub d a b => exact row 0x32 d.index a.index b.index rfl rfl (by simp [Opcode.build])
  | muls d a => exact row 0x40 d.index a.index 0 rfl rfl (by simp [Opcode.build])
  | divs d a => exact row 0x41 d.index a.index 0 rfl rfl (by simp [Opcode.build])

/-! ## What the decoder does with each word (R87) -/

theorem decode_of_rsv {w : Word} (h : rsvField w ≠ 0) : decode w = .error .reservedBits := by
  rw [decode, if_pos (by simpa using h)]

theorem decode_of_no_row {w : Word} (hrsv : rsvField w = 0) (h : ∀ r ∈ opcodeMap, r.code ≠ opField w) :
    decode w = .error .unassignedOpcode := by
  have hrow : rowOf (opField w) = none :=
    Option.eq_none_iff_forall_ne_some.mpr fun r hr => h r (rowOf_eq_some_iff.mp hr).1 (rowOf_eq_some_iff.mp hr).2
  simp [decode, hrsv, hrow]

theorem decode_of_row {w : Word} {r : OpRow} (hr : r ∈ opcodeMap) (hrsv : rsvField w = 0) (hc : r.code = opField w) :
    decode w = if r.fieldsOk (dField w) (aField w) (bField w) then .ok (r.op.build (dField w) (aField w) (bField w))
      else .error .unusedField := by
  simp [decode, hrsv, rowOf_eq_some_iff.mpr ⟨hr, hc⟩, OpRow.fieldsOk]

/-- The word passes R87's checks, and `r` is the row they find. -/
structure OpRow.Accepts (r : OpRow) (w : Word) : Prop where
  rsv : rsvField w = 0
  code : r.code = opField w
  fields : r.fieldsOk (dField w) (aField w) (bField w) = true

/-- A word decodes to the command that its index fields build under the row that accepts it. -/
theorem decode_eq_ok_iff {w : Word} {i : Instr} :
    decode w = .ok i ↔ ∃ r ∈ opcodeMap, r.Accepts w ∧ r.op.build (dField w) (aField w) (bField w) = i := by
  constructor
  · intro h
    by_cases hrsv : rsvField w = 0
    · by_cases hrow : ∃ r ∈ opcodeMap, r.code = opField w
      · obtain ⟨r, hr, hc⟩ := hrow
        rw [decode_of_row hr hrsv hc] at h
        split at h
        · next hf => exact ⟨r, hr, ⟨hrsv, hc, hf⟩, Except.ok.inj h⟩
        · cases h
      · rw [decode_of_no_row hrsv fun r hr hc => hrow ⟨r, hr, hc⟩] at h
        cases h
    · rw [decode_of_rsv hrsv] at h
      cases h
  · rintro ⟨r, hr, ⟨hrsv, hc, hf⟩, rfl⟩
    rw [decode_of_row hr hrsv hc, if_pos hf]

theorem exists_decode_iff {w : Word} : (∃ i, decode w = .ok i) ↔ ∃ r ∈ opcodeMap, r.Accepts w := by
  simp only [decode_eq_ok_iff]
  constructor
  · rintro ⟨_, r, hr, hacc, _⟩; exact ⟨r, hr, hacc⟩
  · rintro ⟨r, hr, hacc⟩; exact ⟨_, r, hr, hacc, rfl⟩

/-- Settles O1: a row's command is encoded as the row's opcode and its index fields, which are the fields of the word. -/
theorem decodeIffEncode : Obligations.DecodeIffEncode := by
  intro w i
  rw [decode_eq_ok_iff]
  constructor
  · rintro ⟨r, hr, ⟨hrsv, hc, hf⟩, rfl⟩
    rw [encode_build r hr _ _ _ hf, eq_commandWord_iff]
    exact ⟨hrsv, hc.symm, rfl, rfl, rfl⟩
  · rintro rfl
    obtain ⟨r, hr, d, a, b, hf, rfl⟩ := exists_row_builds i
    obtain ⟨hrsv, hop, hd, ha, hb⟩ := eq_commandWord_iff.mp (encode_build r hr d a b hf)
    exact ⟨r, hr, ⟨hrsv, hop.symm, by rwa [hd, ha, hb]⟩, by rw [hd, ha, hb]⟩

/-! ## Legality by mask and match (R87) -/

/-- The bits of an index field that a row's mask names: both of an unused field, none of a used one. -/
def fieldMask (c : FieldClass) : BitVec 2 := if c = .unused then 0b11 else 0b00

theorem and_fieldMask_eq_zero (c : FieldClass) (f : BitVec 2) : f &&& fieldMask c = 0 ↔ fieldOk c f = true := by
  cases c <;> revert f <;> decide

/-- R83's masks name the reserved bits, the opcode and the unused fields; its matches are the opcodes. -/
theorem row_mask_pattern : ∀ r ∈ opcodeMap,
    (rsvField r.mask = .allOnes _ ∧ opField r.mask = .allOnes _ ∧ dField r.mask = fieldMask r.d ∧
      aField r.mask = fieldMask r.a ∧ bField r.mask = fieldMask r.b) ∧
    rsvField r.pattern = 0 ∧ opField r.pattern = r.code ∧ dField r.pattern = 0 ∧ aField r.pattern = 0 ∧
      bField r.pattern = 0 := by
  decide

/-- R87's two descriptions of legality agree, row by row. -/
theorem matchesWord_iff_accepts {r : OpRow} (hr : r ∈ opcodeMap) (w : Word) :
    r.matchesWord w = true ↔ r.Accepts w := by
  obtain ⟨⟨mrsv, mop, md, ma, mb⟩, prsv, pop, pd, pa, pb⟩ := row_mask_pattern r hr
  obtain ⟨wrsv, wop, wd, wa, wb⟩ := fields_and w r.mask
  rw [OpRow.matchesWord, beq_iff_eq, word_eq_iff_fields, wrsv, wop, wd, wa, wb, mrsv, mop, md, ma, mb, prsv, pop, pd,
    pa, pb, BitVec.and_allOnes, BitVec.and_allOnes, and_fieldMask_eq_zero, and_fieldMask_eq_zero,
    and_fieldMask_eq_zero, ← OpRow.fieldsOk_iff]
  exact ⟨fun ⟨hrsv, hop, hf⟩ => ⟨hrsv, hop.symm, hf⟩, fun ⟨hrsv, hop, hf⟩ => ⟨hrsv, hop.symm, hf⟩⟩

/-- No word agrees with two rows, since no two rows share an opcode. -/
theorem countP_matchesWord_le_one (w : Word) : opcodeMap.countP (·.matchesWord w) ≤ 1 := by
  have hcodes : (opcodeMap.map OpRow.code).Nodup := by decide
  calc opcodeMap.countP (·.matchesWord w)
      ≤ opcodeMap.countP ((· == opField w) ∘ OpRow.code) :=
        List.countP_mono_left fun r hr hm => beq_iff_eq.mpr ((matchesWord_iff_accepts hr w).mp hm).code
    _ = (opcodeMap.map OpRow.code).count (opField w) := List.countP_map.symm
    _ ≤ 1 := List.nodup_iff_count_le_one.mp hcodes _

theorem countP_matchesWord_eq_one_iff (w : Word) :
    opcodeMap.countP (·.matchesWord w) = 1 ↔ ∃ i, decode w = .ok i := by
  have hle := countP_matchesWord_le_one w
  calc opcodeMap.countP (·.matchesWord w) = 1
      ↔ 0 < opcodeMap.countP (·.matchesWord w) := by omega
    _ ↔ ∃ r ∈ opcodeMap, r.matchesWord w = true := List.countP_pos_iff
    _ ↔ ∃ r ∈ opcodeMap, r.Accepts w :=
        exists_congr fun r => and_congr_right fun hr => matchesWord_iff_accepts hr w
    _ ↔ ∃ i, decode w = .ok i := exists_decode_iff.symm

/-- Settles O2: R87's checks one after the other, then its masks. -/
theorem decodeFollowsOpcodeMap : Obligations.DecodeFollowsOpcodeMap := by
  intro w
  refine ⟨decode_of_rsv, decode_of_no_row, fun r hr hrsv hc => ?_, ?_, ?_⟩
  · rw [decode_of_row hr hrsv hc]
    cases hf : r.fieldsOk (dField w) (aField w) (bField w) with
    | false => exact (if_pos (OpRow.fieldsOk_eq_false_iff.mp hf)).symm
    | true => exact (if_neg fun h => Bool.false_ne_true ((OpRow.fieldsOk_eq_false_iff.mpr h).symm.trans hf)).symm
  · rw [← List.countP_eq_length_filter]
    exact (countP_matchesWord_eq_one_iff w).symm
  · rw [← List.countP_eq_length_filter]
    exact countP_matchesWord_le_one w

/-! ## The illegal words (R84 to R86) -/

/-- R86's ranges are the opcodes of no row. -/
theorem opcode_unassigned_iff (c : BitVec 8) :
    (¬ ∃ r ∈ opcodeMap, r.code = c) ↔
      (c.toNat = 0 ∨ (0x04 ≤ c.toNat ∧ c.toNat ≤ 0x0F) ∨ (0x12 ≤ c.toNat ∧ c.toNat ≤ 0x1F) ∨
        (0x29 ≤ c.toNat ∧ c.toNat ≤ 0x2F) ∨ (0x33 ≤ c.toNat ∧ c.toNat ≤ 0x3F) ∨ 0x42 ≤ c.toNat) := by
  simp only [opcodeMap, List.mem_cons, List.not_mem_nil, or_false, exists_eq_or_imp, exists_eq_left]
  bv_omega

/-- R85's lists of opcodes are those of the rows that do not use the field. -/
theorem row_unused_iff : ∀ r ∈ opcodeMap,
    (r.d = .unused ↔ r.code.toNat = 0x11 ∨ (0x20 ≤ r.code.toNat ∧ r.code.toNat ≤ 0x26)) ∧
    (r.a = .unused ↔ r.code.toNat = 0x10) ∧
    (r.b = .unused ↔ r.code.toNat ≤ 0x11 ∨ r.code.toNat = 0x30 ∨ r.code.toNat = 0x40 ∨ r.code.toNat = 0x41) := by
  decide

/-- A word is illegal, by R84, R86 and R85 in this order. -/
def IllegalWord (w : Word) : Prop :=
  let op := (opField w).toNat
  rsvField w ≠ 0 ∨
  (op = 0 ∨ (0x04 ≤ op ∧ op ≤ 0x0F) ∨ (0x12 ≤ op ∧ op ≤ 0x1F) ∨ (0x29 ≤ op ∧ op ≤ 0x2F) ∨
    (0x33 ≤ op ∧ op ≤ 0x3F) ∨ 0x42 ≤ op) ∨
  ((op = 0x11 ∨ (0x20 ≤ op ∧ op ≤ 0x26)) ∧ dField w ≠ 0) ∨
  (op = 0x10 ∧ aField w ≠ 0) ∨
  ((op ≤ 0x11 ∨ op = 0x30 ∨ op = 0x40 ∨ op = 0x41) ∧ bField w ≠ 0)

theorem illegalWord_iff_of_row {w : Word} {r : OpRow} (hr : r ∈ opcodeMap) (hc : r.code = opField w) :
    IllegalWord w ↔ rsvField w ≠ 0 ∨ r.fieldsOk (dField w) (aField w) (bField w) = false := by
  obtain ⟨hd, ha, hb⟩ := row_unused_iff r hr
  have hassigned : ¬ ¬ ∃ r ∈ opcodeMap, r.code = opField w := not_not_intro ⟨r, hr, hc⟩
  rw [IllegalWord, ← opcode_unassigned_iff, or_iff_right hassigned, ← hc, ← hd, ← ha, ← hb,
    OpRow.fieldsOk_eq_false_iff]

/-- The words that R84 to R86 reject are those that do not decode. -/
theorem illegalWord_iff (w : Word) : IllegalWord w ↔ ∃ e, decode w = .error e := by
  by_cases hrsv : rsvField w = 0
  · by_cases hrow : ∃ r ∈ opcodeMap, r.code = opField w
    · obtain ⟨r, hr, hc⟩ := hrow
      rw [illegalWord_iff_of_row hr hc, decode_of_row hr hrsv hc]
      cases r.fieldsOk (dField w) (aField w) (bField w) <;> simp [hrsv]
    · have hdec := decode_of_no_row hrsv fun r hr hc => hrow ⟨r, hr, hc⟩
      exact iff_of_true (.inr (.inl ((opcode_unassigned_iff _).mp hrow))) ⟨_, hdec⟩
  · exact iff_of_true (.inl hrsv) ⟨_, decode_of_rsv hrsv⟩

theorem not_illegalWord_iff (w : Word) : ¬ IllegalWord w ↔ ∃ i, decode w = .ok i := by
  rw [illegalWord_iff]
  cases decode w <;> simp

/-- Settles O3: an illegal word has no decoding, and a decoded word is its command's one encoding. -/
theorem illegalWordRaisesIllegalCommand : Obligations.IllegalWordRaisesIllegalCommand := by
  intro w
  refine ⟨fun h s => ?_, (not_illegalWord_iff w).mp, fun w' i hw hw' => ?_⟩
  · obtain ⟨e, he⟩ := (illegalWord_iff w).mp h
    exact Machine.runCommand_illegal he s
  · rw [(decodeIffEncode w i).mp hw, (decodeIffEncode w' i).mp hw']

/-! ## The checks of WellFormed (R84 to R86) -/

theorem opcodeIsAssigned_iff (w : Word) : opcodeIsAssigned w = true ↔ ∃ r ∈ opcodeMap, r.code = opField w := by
  rw [← not_iff_not, opcode_unassigned_iff]
  simp only [opcodeIsAssigned, ← show opField w = w.extractLsb' 0 8 from rfl, Bool.or_eq_true, Bool.and_eq_true,
    decide_eq_true_eq]
  omega

/-- The ranges in WellFormed's checks of R85, on the opcodes that have a row. -/
theorem row_unused_beq : ∀ r ∈ opcodeMap,
    (r.code.toNat == 0x11 || (0x20 ≤ r.code.toNat && r.code.toNat ≤ 0x26)) = (r.d == .unused) ∧
    (r.code.toNat == 0x10) = (r.a == .unused) ∧
    (r.code.toNat ≤ 0x11 || r.code.toNat == 0x30 || 0x40 ≤ r.code.toNat) = (r.b == .unused) := by
  decide

theorem unusedAreZero_eq_fieldsOk {w : Word} {r : OpRow} (hr : r ∈ opcodeMap) (hc : r.code = opField w) :
    (unusedDIsZero w && unusedAIsZero w && unusedBIsZero w) = r.fieldsOk (dField w) (aField w) (bField w) := by
  obtain ⟨hd, ha, hb⟩ := row_unused_beq r hr
  simp only [unusedDIsZero, unusedAIsZero, unusedBIsZero, ← show opField w = w.extractLsb' 0 8 from rfl, ← hc, hd,
    ha, hb]
  rfl

theorem wordWellFormed_iff (w : Word) : wordWellFormed w = true ↔ ∃ r ∈ opcodeMap, r.Accepts w := by
  have hrsv : rsvIsZero w = true ↔ rsvField w = 0 := beq_iff_eq
  rw [wordWellFormed, Bool.and_assoc, Bool.and_assoc, ← Bool.and_assoc (unusedDIsZero w), Bool.and_eq_true,
    Bool.and_eq_true, opcodeIsAssigned_iff, hrsv]
  constructor
  · rintro ⟨⟨hrsv, r, hr, hc⟩, hf⟩
    exact ⟨r, hr, hrsv, hc, unusedAreZero_eq_fieldsOk hr hc ▸ hf⟩
  · rintro ⟨r, hr, hrsv, hc, hf⟩
    exact ⟨⟨hrsv, r, hr, hc⟩, (unusedAreZero_eq_fieldsOk hr hc).trans hf⟩

/-- Settles O4: both describe the words that some row accepts. -/
theorem wellFormedWordsAreTheDecodedOnes : Obligations.WellFormedWordsAreTheDecodedOnes :=
  fun w => (wordWellFormed_iff w).trans exists_decode_iff.symm

/-- Settles O5. -/
theorem exampleWordsDecode : Obligations.ExampleWordsDecode := ⟨rfl, rfl, rfl, rfl, rfl, rfl, rfl⟩

end Sys2Proof

namespace Sys2Proof.Machine

/-! ## The step takes the event at the head of the port (30_encoding.md R95, 20_memory.md R71) -/

theorem step_of_port {s : State} {ev : Event} {rest : List Event} (h : s.port = ev :: rest) :
    step s = handle ev (s.accept rest) := by
  rw [step, nextEvent, h]

/-- Settles O7: the event at the head is a transaction, and WCMD runs what its word decodes to. -/
theorem stepRunsDecodedCommand : Obligations.StepRunsDecodedCommand := by
  intro s rest
  refine ⟨fun w i hport hw => ?_, fun x hport => ?_⟩
  · rw [step_of_port hport]
    exact runCommand_ok hw _
  · rw [step_of_port hport]
    rfl

end Sys2Proof.Machine

namespace Sys2Proof.Machine

/-! ## Characters in upper case (30_encoding.md R90) -/

theorem toNat_toUpper (c : Char) :
    c.toUpper.toNat = if 97 ≤ c.toNat ∧ c.toNat ≤ 122 then c.toNat - 32 else c.toNat := by
  have hlo : ('a'.val ≤ c.val) = (97 ≤ c.toNat) := rfl
  have hhi : (c.val ≤ 'z'.val) = (c.toNat ≤ 122) := rfl
  simp only [Char.toUpper, hlo, hhi]
  split
  · next h =>
    change (c.val + ('A'.val - 'a'.val)).toNat = c.toNat - 32
    rw [UInt32.toNat_add, show ('A'.val - 'a'.val).toNat = 2 ^ 32 - 32 by decide]
    change (c.toNat + _) % _ = _
    omega
  · rfl

theorem isDigit_iff (c : Char) : c.isDigit = true ↔ 48 ≤ c.toNat ∧ c.toNat ≤ 57 := by
  rw [Char.isDigit, Bool.and_eq_true, decide_eq_true_eq, decide_eq_true_eq]
  exact Iff.rfl

/-- A digit is its own upper case, and the upper case of nothing else. -/
theorem toUpper_eq_digit_iff (c : Char) {k : Nat} (hk : k ≤ 3) :
    c.toUpper = Char.ofNat ('0'.toNat + k) ↔ c.isDigit = true ∧ c.toNat - '0'.toNat = k := by
  have hzero : '0'.toNat = 48 := rfl
  have hvalid : (48 + k).isValidChar := .inl (by omega)
  rw [← Char.toNat_inj, Char.toNat_ofNat, toNat_toUpper, isDigit_iff, hzero, if_pos hvalid]
  split <;> omega

/-! ## Operands and the names they are written as -/

/-- An operand a line can hold and a command can use: a Register or a buffer, its index at most 3. -/
def Usable (o : AsmOperand) : Prop := o.cls ≠ .unused ∧ o.index ≤ 3

/-- The operand as it is printed. -/
def operandName (o : AsmOperand) : List Char :=
  [if o.cls = .reg then 'X' else 'E', Char.ofNat ('0'.toNat + o.index)]

theorem xName_ofIndex (f : BitVec 2) : xName (.ofIndex f) = operandName ⟨.reg, f.toNat⟩ := by
  simp [xName, operandName, indexChar]

theorem eName_ofIndex (f : BitVec 2) : eName (.ofIndex f) = operandName ⟨.buf, f.toNat⟩ := by
  simp [eName, operandName, indexChar]

theorem operandOf_pair_eq_some_iff {x n : Char} {o : AsmOperand} :
    operandOf [x, n] = some o ↔
      n.isDigit = true ∧ n.toNat - '0'.toNat = o.index ∧
        ((o.cls = .reg ∧ x.toUpper = 'X') ∨ (o.cls = .buf ∧ x.toUpper = 'E')) := by
  obtain ⟨c, k⟩ := o
  simp only [operandOf]
  grind

/-- A token names an operand iff it is the printed form of it, case aside. -/
theorem operandOf_eq_some_iff {t : List Char} {o : AsmOperand} (ho : Usable o) :
    operandOf t = some o ↔ upper t = operandName o := by
  match t with
  | [] | [_] | _ :: _ :: _ :: _ => simp [operandOf, upper, operandName]
  | [x, n] =>
    rw [operandOf_pair_eq_some_iff, upper, operandName, List.map_cons, List.map_cons, List.map_nil, List.cons.injEq,
      List.cons.injEq, toUpper_eq_digit_iff n ho.2]
    obtain ⟨c, k⟩ := o
    cases c with
    | unused => exact absurd rfl ho.1
    | reg => simp; tauto
    | buf => simp; tauto

theorem mapM_operandOf_eq_some_iff {ts : List (List Char)} {os : List AsmOperand} (hos : ∀ o ∈ os, Usable o) :
    ts.mapM operandOf = some os ↔ ts.map upper = os.map operandName := by
  induction ts generalizing os with
  | nil => cases os <;> simp
  | cons t ts ih =>
    cases os with
    | nil => simp [Option.bind_eq_some_iff]
    | cons o os =>
      rw [List.forall_mem_cons] at hos
      simp [Option.bind_eq_some_iff, ← operandOf_eq_some_iff hos.1, ← ih hos.2]

/-! ## The operands of a command -/

/-- The operand of one index field: none where the field is unused. -/
def fieldOperand (c : FieldClass) (f : BitVec 2) : List AsmOperand :=
  if c = .unused then [] else [⟨c, f.toNat⟩]

/-- The operands of a row's command, in the order D, A, B. -/
def rowOperands (r : OpRow) (d a b : BitVec 2) : List AsmOperand :=
  fieldOperand r.d d ++ (fieldOperand r.a a ++ fieldOperand r.b b)

theorem usable_of_mem_fieldOperand {c : FieldClass} {f : BitVec 2} {o : AsmOperand} (h : o ∈ fieldOperand c f) :
    Usable o := by
  unfold fieldOperand at h
  split at h
  · cases h
  · next hc =>
    obtain rfl := List.mem_singleton.mp h
    exact ⟨hc, Nat.le_of_lt_succ f.isLt⟩

theorem usable_rowOperands (r : OpRow) (d a b : BitVec 2) : ∀ o ∈ rowOperands r d a b, Usable o := by
  simp only [rowOperands, List.forall_mem_append]
  exact ⟨fun _ => usable_of_mem_fieldOperand, fun _ => usable_of_mem_fieldOperand,
    fun _ => usable_of_mem_fieldOperand⟩

theorem takeField_fieldOperand {c : FieldClass} {f : BitVec 2} (h : fieldOk c f = true) (os : List AsmOperand) :
    takeField c (fieldOperand c f ++ os) = (f, os) := by
  by_cases hc : c = .unused
  · simp [takeField, fieldOperand, hc, fieldOk_iff.mp h hc]
  · simp [takeField, fieldOperand, hc]

theorem placeOperands_rowOperands {r : OpRow} {d a b : BitVec 2} (h : r.fieldsOk d a b = true) :
    placeOperands r (rowOperands r d a b) = r.op.build d a b := by
  obtain ⟨hd, ha, hb⟩ := OpRow.fieldsOk_iff.mp h
  have htakeB : takeField r.b (fieldOperand r.b b) = (b, []) := by
    simpa using takeField_fieldOperand hb []
  simp only [placeOperands, rowOperands, takeField_fieldOperand hd, takeField_fieldOperand ha, htakeB]

theorem disassemble_build : ∀ r ∈ opcodeMap, ∀ d a b,
    disassemble (r.op.build d a b) = ⟨mnemonicOf r.op, (rowOperands r d a b).map operandName⟩ := by
  simp [opcodeMap, Opcode.build, disassemble, rowOperands, fieldOperand, xName_ofIndex, eName_ofIndex]

theorem disassemble_eq_iff {l : AsmLine} {i : Instr} :
    disassemble i = l ↔ ∃ r ∈ opcodeMap, ∃ d a b, r.Builds d a b i ∧ mnemonicOf r.op = l.mnemonic ∧
      (rowOperands r d a b).map operandName = l.operands := by
  obtain ⟨m, os⟩ := l
  constructor
  · intro h
    obtain ⟨r, hr, d, a, b, hf, rfl⟩ := exists_row_builds i
    rw [disassemble_build r hr, AsmLine.mk.injEq] at h
    exact ⟨r, hr, d, a, b, ⟨hf, rfl⟩, h⟩
  · rintro ⟨r, hr, d, a, b, ⟨-, rfl⟩, rfl, rfl⟩
    exact disassemble_build r hr d a b

/-! ## The checks on the operands -/

/-- The operand has the class its place asks for, and an index that exists. -/
def OperandFits (want : FieldClass) (o : AsmOperand) : Prop := o.cls = want ∧ o.index ≤ 3

theorem forall₂_fits_iff {want : List FieldClass} {os : List AsmOperand} :
    List.Forall₂ OperandFits want os ↔ operandCountOk want os = true ∧
      ((want.zip os).all fun p => operandClassOk p.1 p.2) = true ∧ os.all operandIndexOk = true := by
  induction want generalizing os with
  | nil => cases os <;> simp [operandCountOk]
  | cons c cs ih =>
    cases os with
    | nil => simp [operandCountOk]
    | cons o os =>
      simp only [List.forall₂_cons, ih, OperandFits, operandCountOk, operandClassOk, operandIndexOk, List.zip_cons_cons,
        List.all_cons, List.length_cons, Bool.and_eq_true, beq_iff_eq, decide_eq_true_eq, Nat.add_right_cancel_iff]
      tauto

theorem checkOperands_eq_ok_iff {want : List FieldClass} {os : List AsmOperand} {u : Unit} :
    checkOperands want os = .ok u ↔ List.Forall₂ OperandFits want os := by
  rw [forall₂_fits_iff, checkOperands]
  split_ifs <;> simp_all

/-- The operands that fit a row's places are, place by place, the operand of an index field. -/
theorem forall₂_fits_cons_iff {c : FieldClass} {cs : List FieldClass} {os : List AsmOperand} :
    List.Forall₂ OperandFits ((c :: cs).filter (· != .unused)) os ↔
      ∃ f, fieldOk c f = true ∧ ∃ os', List.Forall₂ OperandFits (cs.filter (· != .unused)) os' ∧
        os = fieldOperand c f ++ os' := by
  by_cases hc : c = .unused
  · simp [hc, fieldOperand, fieldOk]
  · have hkeep : (c :: cs).filter (· != .unused) = c :: cs.filter (· != .unused) := by simp [hc]
    rw [hkeep, List.forall₂_cons_left_iff]
    constructor
    · rintro ⟨⟨c', k⟩, os', ⟨rfl, hk : k ≤ 3⟩, hos, rfl⟩
      have hk' : (BitVec.ofNat 2 k).toNat = k := by simp; omega
      exact ⟨BitVec.ofNat 2 k, by simp [fieldOk_iff, hc], os', hos, by simp [fieldOperand, hc, hk']⟩
    · rintro ⟨f, -, os', hos, rfl⟩
      exact ⟨⟨c, f.toNat⟩, os', ⟨rfl, Nat.le_of_lt_succ f.isLt⟩, hos, by simp [fieldOperand, hc]⟩

theorem fits_operandClasses_iff {r : OpRow} {os : List AsmOperand} :
    List.Forall₂ OperandFits (operandClasses r) os ↔
      ∃ d a b, r.fieldsOk d a b = true ∧ os = rowOperands r d a b := by
  simp only [operandClasses, forall₂_fits_cons_iff, List.filter_nil, List.forall₂_nil_left_iff, OpRow.fieldsOk_iff,
    rowOperands]
  constructor
  · rintro ⟨d, hd, _, ⟨a, ha, _, ⟨b, hb, _, rfl, rfl⟩, rfl⟩, rfl⟩
    exact ⟨d, a, b, ⟨hd, ha, hb⟩, by simp⟩
  · rintro ⟨d, a, b, ⟨hd, ha, hb⟩, rfl⟩
    exact ⟨d, hd, _, ⟨a, ha, _, ⟨b, hb, _, rfl, rfl⟩, rfl⟩, by simp⟩

/-! ## Assembling -/

theorem rowNamed_eq_some_iff {m : List Char} {r : OpRow} :
    rowNamed m = some r ↔ r ∈ opcodeMap ∧ mnemonicOf r.op = upper m := by
  have hfind : ∀ r ∈ opcodeMap, opcodeMap.find? (fun r' => mnemonicOf r'.op == mnemonicOf r.op) = some r := by decide
  refine ⟨fun h => ⟨List.mem_of_find?_eq_some h, by simpa using List.find?_some h⟩, ?_⟩
  rintro ⟨hr, hm⟩
  rw [rowNamed, ← hm]
  exact hfind r hr

theorem assemble_eq_ok_iff {l : AsmLine} {i : Instr} :
    assemble l = .ok i ↔ ∃ r ∈ opcodeMap, ∃ d a b, r.Builds d a b i ∧ mnemonicOf r.op = upper l.mnemonic ∧
      l.operands.mapM operandOf = some (rowOperands r d a b) := by
  constructor
  · intro h
    unfold assemble at h
    split at h
    · cases h
    · next r hrow =>
      split at h
      · cases h
      · next os hos =>
        split at h
        · cases h
        · next hcheck =>
          obtain ⟨hr, hm⟩ := rowNamed_eq_some_iff.mp hrow
          obtain ⟨d, a, b, hf, rfl⟩ := fits_operandClasses_iff.mp (checkOperands_eq_ok_iff.mp hcheck)
          rw [placeOperands_rowOperands hf] at h
          exact ⟨r, hr, d, a, b, ⟨hf, Except.ok.inj h⟩, hm, hos⟩
  · rintro ⟨r, hr, d, a, b, ⟨hf, rfl⟩, hm, hos⟩
    have hcheck : checkOperands (operandClasses r) (rowOperands r d a b) = .ok () :=
      checkOperands_eq_ok_iff.mpr (fits_operandClasses_iff.mpr ⟨d, a, b, hf, rfl⟩)
    simp only [assemble, rowNamed_eq_some_iff.mpr ⟨hr, hm⟩, hos, hcheck, placeOperands_rowOperands hf]

/-- Settles O6: both sides say that the line's mnemonic and tokens, case aside, are those of a row's command. -/
theorem assembleIffPrinted : Obligations.AssembleIffPrinted := by
  intro l i
  simp only [assemble_eq_ok_iff, disassemble_eq_iff, mapM_operandOf_eq_some_iff (usable_rowOperands _ _ _ _),
    eq_comm (a := l.operands.map upper)]

end Sys2Proof.Machine

namespace Sys2Proof.Machine

/-! ## Bytes written one after the other (30_encoding.md R91) -/

/-- A buffer with data byte `k` replaced, if there is one. -/
def Buffer.setByte {n : Nat} (b : Buffer n) (k : Nat) (v : Byte) : Buffer n :=
  { b with data := b.data.setIfInBounds k v }

theorem writeByte_of_lt {n : Nat} (b : Buffer n) {k : Nat} (v : Byte) (hk : k < n) :
    b.writeByte k v = some (b.setByte k v) := by
  have hset : b.data.set k v hk = b.data.setIfInBounds k v :=
    Vector.ext fun j hj => by rw [Vector.getElem_set, Vector.getElem_setIfInBounds]
  rw [Buffer.writeByte, dif_pos hk, hset, Buffer.setByte]

/-- A buffer with its low data bytes replaced by a list, in index order. -/
def Buffer.setBytes {n : Nat} (b : Buffer n) (bs : List Byte) : Buffer n :=
  bs.zipIdx.foldl (fun c p => c.setByte p.2 p.1) b

theorem Buffer.setBytes_append_singleton {n : Nat} (b : Buffer n) (bs : List Byte) (v : Byte) :
    b.setBytes (bs ++ [v]) = (b.setBytes bs).setByte bs.length v := by
  simp [setBytes, List.zipIdx_append]

theorem Buffer.len_setBytes {n : Nat} (b : Buffer n) (bs : List Byte) : (b.setBytes bs).len = b.len := by
  induction bs using List.reverseRecOn with
  | nil => rfl
  | append_singleton bs v ih => rw [setBytes_append_singleton, ← ih]; rfl

/-- The bytes of the list, then the bytes that stood there. -/
theorem Buffer.data_setBytes {n : Nat} (b : Buffer n) {bs : List Byte} (h : bs.length ≤ n) (k : Nat) :
    (b.setBytes bs).data.toList[k]? = if k < bs.length then bs[k]? else b.data.toList[k]? := by
  induction bs using List.reverseRecOn with
  | nil => rfl
  | append_singleton bs v ih =>
    rw [List.length_append, List.length_singleton] at h
    rw [setBytes_append_singleton, setByte, Vector.toList_setIfInBounds, List.getElem?_set, ih (by omega),
      List.getElem?_append, List.length_append, List.length_singleton, Vector.length_toList]
    grind

/-- A list no longer than the buffer, loaded with its length, is what the buffer then holds. -/
theorem Buffer.contents_setBytes {n : Nat} (b : Buffer n) {bs : List Byte} (h : bs.length ≤ n) (hn : n < 256) :
    (({ b with len := BitVec.ofNat 8 bs.length } : Buffer n).setBytes bs).contents = bs := by
  have hlen : (BitVec.ofNat 8 bs.length).toNat = bs.length := by simp; omega
  apply List.ext_getElem?
  intro k
  rw [contents, len_setBytes, hlen, List.getElem?_take, data_setBytes _ h]
  grind

/-! ## Words written one after the other -/

/-- The first `n` words of a Register value replaced by those of another. -/
def setWords (x v : Reg) (n : Nat) : Reg := (List.range n).foldl (fun x j => setWord x j (word v j)) x

theorem setWords_succ (x v : Reg) (n : Nat) : setWords x v (n + 1) = setWord (setWords x v n) n (word v n) := by
  simp [setWords, List.range_succ]

theorem word_setWords (x v : Reg) {n : Nat} (hn : n ≤ 8) {j : Nat} (hj : j < 8) :
    word (setWords x v n) j = if j < n then word v j else word x j := by
  induction n with
  | zero => rfl
  | succ n ih =>
    rw [setWords_succ, word_setWord _ _ (by omega) hj, ih (by omega)]
    grind

/-- All eight words replaced leave the other value. -/
theorem setWords_eight (x v : Reg) : setWords x v 8 = v := by
  have hwords : words (setWords x v 8) = words v :=
    List.map_congr_left fun j hj => by
      have hj8 : j < 8 := List.mem_range.mp hj
      rw [word_setWords x v le_rfl hj8, if_pos hj8]
  rw [← ofWords_words (setWords x v 8), hwords, ofWords_words]

/-! ## Runs over the transactions of a line -/

/-- The reply of the last event is gone once the next one is taken (log 2). -/
theorem run_forgets_resp {s : State} {ev : Event} {evs : List Event} (h : s.port = ev :: evs) (n : Nat) :
    (core.run (n + 1) s : Host.Outcome State Fault Refusal) = core.run (n + 1) { s with resp := none } := by
  have hstep : core.step s = core.step { s with resp := none } := by
    change step s = step _
    rw [step_of_port h, step_of_port (s := { s with resp := none }) h]
    rfl
  simp only [Host.Core.run, hstep]

/-- A run over the transactions of a list acts on a part `b` of the state as the transactions do, one by one. -/
theorem run_issue_map {ι β : Type} {tx : ι → Txn} {u : β → List Event → State} {act : β → ι → β} {l : List ι}
    (hstep : ∀ x ∈ l, ∀ b evs, step (u b (.txn (tx x) :: evs)) = .next (u (act b x) evs)) (b : β) (rest : List Event) :
    (core.run l.length (u b (issue (l.map tx) ++ rest)) : Host.Outcome State Fault Refusal) =
      .next (u (l.foldl act b) rest) := by
  induction l generalizing b with
  | nil => rfl
  | cons x l ih =>
    rw [List.forall_mem_cons] at hstep
    exact (run_succ_of_step (hstep.1 b _)).trans (ih hstep.2 _)

theorem XRegs.set_set (x : XRegs) (r : XReg) (v w : Reg) : (x.set r v).set r w = x.set r w := by cases r <;> rfl

theorem XRegs.set_get (x : XRegs) (r : XReg) : x.set r (x.get r) = x := by cases r <;> rfl

theorem EBufs.set_set (e : EBufs) (i : EBuf) (b c : Buffer Config.maxLen) : (e.set i b).set i c = e.set i c := by
  cases i <;> rfl

/-- One `WX` of the line, whatever the earlier ones wrote. -/
theorem step_writeWord (s : State) (r : XReg) (x : Reg) {j : Nat} (hj : j < 8) (w : Word) (evs : List Event) :
    step { s with x := s.x.set r x, port := .txn (.wx r.index.toNat j w) :: evs, resp := none } =
      .next { s with x := s.x.set r (setWord x j w), port := evs, resp := none } := by
  rw [step_of_port rfl, handle, transact, State.hostWriteX, xRegAt_index]
  simp [hj, State.setX, State.getX, XRegs.set_set, State.accept]

theorem step_writeELen (s : State) (i : EBuf) (v : Byte) (evs : List Event) :
    step { s with port := .txn (.wel i.index.toNat v) :: evs } =
      .next { s with e := s.e.set i { s.getE i with len := v }, port := evs, resp := none } := by
  rw [step_of_port rfl, handle, transact, State.hostWriteELen, eBufAt_index]
  rfl

theorem step_writeEByte (s : State) (i : EBuf) (buf : Buffer Config.maxLen) {k : Nat} (hk : k < 32) (v : Byte)
    (evs : List Event) :
    step { s with e := s.e.set i buf, port := .txn (.web i.index.toNat k v) :: evs, resp := none } =
      .next { s with e := s.e.set i (buf.setByte k v), port := evs, resp := none } := by
  rw [step_of_port rfl, handle, transact, State.hostWriteEByte, eBufAt_index]
  simp [writeByte_of_lt _ _ hk, State.setE, State.getE, EBufs.set_set, State.accept]

theorem step_writeTinByte (s : State) (buf : Buffer Config.tinMax) {k : Nat} (hk : k < 255) (v : Byte)
    (evs : List Event) :
    step { s with tin := buf, port := .txn (.wtb k v) :: evs, resp := none } =
      .next { s with tin := buf.setByte k v, port := evs, resp := none } := by
  rw [step_of_port rfl, handle, transact, State.hostWriteTin]
  simp [writeByte_of_lt _ _ hk, State.accept]

theorem lt_of_mem_zipIdx {bs : List Byte} {p : Byte × Nat} (h : p ∈ bs.zipIdx) : p.2 < bs.length := by
  simpa using List.snd_lt_of_mem_zipIdx h

theorem run_noteWX (s : State) (r : XReg) (v : Reg) (rest : List Event) :
    (core.run 8 { s with port := issue (noteWX r.index.toNat v) ++ rest } : Host.Outcome State Fault Refusal) =
      .next { s with x := s.x.set r v, port := rest, resp := none } := by
  have hrun := run_issue_map (tx := fun j => .wx r.index.toNat j (word v j))
    (u := fun x evs => { s with x := s.x.set r x, port := evs, resp := none }) (l := List.range 8)
    (act := fun x j => setWord x j (word v j))
    (fun j hj x evs => step_writeWord s r x (List.mem_range.mp hj) _ evs) (s.x.get r) rest
  rw [← setWords, setWords_eight, XRegs.set_get, List.length_range] at hrun
  rw [← hrun]
  exact run_forgets_resp (s := { s with port := issue (noteWX r.index.toNat v) ++ rest }) rfl 7

theorem run_noteWE (s : State) (i : EBuf) {bs : List Byte} (h : bs.length ≤ 32) (rest : List Event) :
    (core.run (bs.length + 1) { s with port := issue (noteWE i.index.toNat bs) ++ rest } :
      Host.Outcome State Fault Refusal) =
      .next { s with
        e := s.e.set i (({ s.getE i with len := BitVec.ofNat 8 bs.length } : Buffer _).setBytes bs)
        port := rest, resp := none } := by
  have hrun := run_issue_map (tx := fun p => .web i.index.toNat p.2 p.1)
    (u := fun buf evs => { s with e := s.e.set i buf, port := evs, resp := none }) (l := bs.zipIdx)
    (act := fun buf p => buf.setByte p.2 p.1)
    (fun p hp buf evs => step_writeEByte s i buf ((lt_of_mem_zipIdx hp).trans_le h) _ evs)
    { s.getE i with len := BitVec.ofNat 8 bs.length } rest
  rw [← Buffer.setBytes, List.length_zipIdx] at hrun
  rw [← hrun, noteWE, List.mapIdx_eq_zipIdx_map]
  exact run_succ_of_step (step_writeELen s i _ _)

theorem noteWT_eq_some {text : List Byte} {ts : List Txn} (h : noteWT text = some ts) :
    text.length ≤ 255 ∧ ts = .wtl (BitVec.ofNat 8 text.length) :: text.mapIdx fun k b => .wtb k b := by
  unfold noteWT at h
  split at h
  · next hlen => exact ⟨hlen, (Option.some.inj h).symm⟩
  · cases h

theorem run_noteWT (s : State) {text : List Byte} {ts : List Txn} (h : noteWT text = some ts) (rest : List Event) :
    (core.run (text.length + 1) { s with port := issue ts ++ rest } : Host.Outcome State Fault Refusal) =
      .next { s with
        tin := ({ s.tin with len := BitVec.ofNat 8 text.length } : Buffer _).setBytes text
        port := rest, resp := none } := by
  obtain ⟨hlen, rfl⟩ := noteWT_eq_some h
  have hrun := run_issue_map (tx := fun p => .wtb p.2 p.1)
    (u := fun buf evs => { s with tin := buf, port := evs, resp := none }) (l := text.zipIdx)
    (act := fun buf p => buf.setByte p.2 p.1)
    (fun p hp buf evs => step_writeTinByte s buf ((lt_of_mem_zipIdx hp).trans_le hlen) _ evs)
    { s.tin with len := BitVec.ofNat 8 text.length } rest
  rw [← Buffer.setBytes, List.length_zipIdx] at hrun
  rw [← hrun, List.mapIdx_eq_zipIdx_map]
  exact run_succ_of_step rfl

/-- Settles O59: each line's transactions run one after the other, and load what the line says. -/
theorem hostNotationRuns : Obligations.HostNotationRuns := by
  intro s rest
  refine ⟨fun r v => run_noteWX s r v rest, fun b bs h => ⟨_, run_noteWE s b h rest, ?_, fun k hk => ?_⟩,
    fun text ts h => ⟨_, run_noteWT s h rest, ?_, fun k hk => ?_, rfl⟩, fun v => rfl, fun i => ?_⟩
  · exact Buffer.contents_setBytes _ h (by decide)
  · rw [Buffer.data_setBytes _ h, if_neg (by omega)]
  · exact Buffer.contents_setBytes _ (noteWT_eq_some h).1 (by decide)
  · rw [Buffer.data_setBytes _ (noteWT_eq_some h).1, if_neg (by omega)]
  · rw [step_of_port rfl]
    exact runCommand_ok ((decodeIffEncode _ i).mpr rfl) _

end Sys2Proof.Machine

namespace Sys2Proof.Machine

/-! ## A Register value is its 32 bytes (20_memory.md R61) -/

theorem ofBytes_bytes (x : Reg) : ofBytes (bytes x 32) = x :=
  BitVec.eq_of_toNat_eq (by rw [ofBytes, bytesToNat_bytes, BitVec.toNat_ofNat, Nat.mod_mod, Nat.mod_eq_of_lt x.isLt])

theorem eq_iff_bytes {x y : Reg} : x = y ↔ ∀ k < 32, byte x k = byte y k := by
  refine ⟨by rintro rfl; simp, fun h => ?_⟩
  have hbytes : bytes x 32 = bytes y 32 := List.map_congr_left fun k hk => h k (List.mem_range.mp hk)
  rw [← ofBytes_bytes x, hbytes, ofBytes_bytes]

theorem byte_ofBytes {l : List Byte} (h : l.length = 32) {k : Nat} (hk : k < 32) : byte (ofBytes l) k = l.getD k 0 := by
  have hget := bytes_getElem? (ofBytes l) 32 k hk
  rw [bytes_ofBytes h] at hget
  simp [hget]

theorem word_eq_bytes (x : Reg) (j : Nat) :
    word x j = byte x (4 * j + 3) ++ byte x (4 * j + 2) ++ byte x (4 * j + 1) ++ byte x (4 * j) := by
  rw [byte, byte, BitVec.extractLsb'_append_extractLsb'_eq_extractLsb' (by ring), byte,
    BitVec.extractLsb'_append_extractLsb'_eq_extractLsb' (by ring), byte,
    BitVec.extractLsb'_append_extractLsb'_eq_extractLsb' (by ring), word, ← Nat.mul_assoc]

theorem bytes_succ (x : Reg) (n : Nat) : bytes x (n + 1) = bytes x n ++ [byte x n] := by
  simp [bytes, List.range_succ]

theorem msb_byte_last (x : Reg) : (byte x 31).msb = sign x := by
  have hx := x.isLt
  rw [sign, BitVec.msb_eq_decide, BitVec.msb_eq_decide, toNat_byte, decide_eq_decide]
  omega

/-! ## The pad byte (40_codec.md R103) -/

/-- The byte that sign extension puts above a list. -/
def padByte (b : List Byte) : Byte := if lastTopBit b then 0xFF else 0x00

@[simp] theorem lastTopBit_nil : lastTopBit [] = false := rfl

@[simp] theorem lastTopBit_append_singleton (l : List Byte) (t : Byte) : lastTopBit (l ++ [t]) = t.msb := by
  simp [lastTopBit]

@[simp] theorem msb_padByte (b : List Byte) : (padByte b).msb = lastTopBit b := by
  rw [padByte]
  cases lastTopBit b <;> rfl

@[simp] theorem padByte_append_padByte (l : List Byte) : padByte (l ++ [padByte l]) = padByte l := by
  rw [padByte, lastTopBit_append_singleton, msb_padByte, padByte]

/-- Byte `k` of the sign extension: the list's, or the pad byte above it. -/
theorem byte_decodeBytes (b : List Byte) {k : Nat} (hk : k < 32) :
    byte (decodeBytes b) k = if k < b.length then b.getD k 0 else padByte b := by
  rw [decodeBytes, ← padByte, byte_ofBytes (by simp) hk]
  split
  · next h => simp [hk, h]
  · next h => simp [hk, Nat.le_of_not_lt h]

/-- The low bytes of a decoded list are the list. -/
theorem bytes_decodeBytes {b : List Byte} (h : b.length ≤ 32) : bytes (decodeBytes b) b.length = b := by
  refine List.ext_getElem (by simp) fun k hk hk' => ?_
  simp [bytes, byte_decodeBytes b (hk'.trans_le h), hk']

/-- One more byte leaves the sign extension as it is exactly when it is the pad byte. -/
theorem decodeBytes_append_eq_iff {l : List Byte} (t : Byte) (h : l.length < 32) :
    decodeBytes (l ++ [t]) = decodeBytes l ↔ t = padByte l := by
  rw [eq_iff_bytes]
  constructor
  · intro hbytes
    simpa [byte_decodeBytes _ h] using hbytes l.length h
  · rintro rfl k hk
    rw [byte_decodeBytes _ hk, byte_decodeBytes _ hk, padByte_append_padByte]
    rcases Nat.lt_trichotomy k l.length with hlt | rfl | hgt
    · simp [hlt, hlt.le]
    · simp
    · simp [hgt.not_gt, hgt.not_ge]

/-- The byte that sign extension puts above a value's own bytes. -/
def signByte (x : Reg) : Byte := if sign x then 0xFF else 0x00

/-- The low `n` bytes of a value decode back to it exactly when they have its sign and all above are the sign byte. -/
theorem decodeBytes_bytes_eq_iff {x : Reg} {n : Nat} (hn : n ≤ 32) :
    decodeBytes (bytes x n) = x ↔
      lastTopBit (bytes x n) = sign x ∧ ∀ k, n ≤ k → k < 32 → byte x k = signByte x := by
  have hbyte {k : Nat} (hk : k < 32) :
      byte (decodeBytes (bytes x n)) k = if k < n then byte x k else padByte (bytes x n) := by
    rw [byte_decodeBytes _ hk, length_bytes]
    split
    · next h => rw [List.getD_eq_getElem?_getD, bytes_getElem? x n k h, Option.getD_some]
    · rfl
  constructor
  · intro h
    have hsign : lastTopBit (bytes x n) = sign x := by
      rcases hn.lt_or_eq with hlt | rfl
      · have := hbyte (k := 31) (by omega)
        rw [h, if_neg (by omega)] at this
        rw [← msb_padByte, ← this, msb_byte_last]
      · rw [bytes_succ, lastTopBit_append_singleton, msb_byte_last]
    refine ⟨hsign, fun k hk hk' => ?_⟩
    have := hbyte hk'
    rwa [h, if_neg (by omega), padByte, hsign] at this
  · rintro ⟨hsign, habove⟩
    refine eq_iff_bytes.mpr fun k hk => ?_
    rw [hbyte hk]
    split
    · rfl
    · next h => rw [habove k (by omega) hk, padByte, hsign, signByte]

/-! ## The integer of an encoding (R103, R9) -/

/-- The two's-complement value of a byte list. -/
def encodedInt (b : List Byte) : Int := (BitVec.ofNat (8 * b.length) (bytesToNat b)).toInt

theorem encodedInt_eq (b : List Byte) :
    encodedInt b = bytesToNat b - if lastTopBit b then (2 : Int) ^ (8 * b.length) else 0 := by
  have hlt := bytesToNat_lt b
  have hmsb : (BitVec.ofNat (8 * b.length) (bytesToNat b)).msb = lastTopBit b := by
    rw [BitVec.msb_eq_decide, BitVec.toNat_ofNat, Nat.mod_eq_of_lt hlt]
    rcases List.eq_nil_or_concat' b with rfl | ⟨l, t, rfl⟩
    · rfl
    · have hl := bytesToNat_lt l
      rw [lastTopBit_append_singleton, BitVec.msb_eq_decide, decide_eq_decide, bytesToNat_append, List.length_append,
        List.length_singleton, show 8 * (l.length + 1) - 1 = 7 + 8 * l.length by omega, pow_add,
        ← Nat.le_div_iff_mul_le (by positivity), Nat.add_mul_div_left _ _ (by positivity), Nat.div_eq_of_lt hl,
        Nat.zero_add]
  rw [encodedInt, BitVec.toInt_eq_msb_cond, hmsb, BitVec.toNat_ofNat, Nat.mod_eq_of_lt hlt]
  split <;> simp

theorem encodedInt_append_padByte (l : List Byte) : encodedInt (l ++ [padByte l]) = encodedInt l := by
  rw [encodedInt_eq, encodedInt_eq, bytesToNat_append, lastTopBit_append_singleton, msb_padByte, padByte]
  cases lastTopBit l with
  | false => simp
  | true => simp [Nat.mul_add, pow_add]; ring

/-- Sign extension keeps the value: it adds pad bytes, and each of them keeps it. -/
theorem val_decodeBytes {b : List Byte} (h : b.length ≤ 32) : val (decodeBytes b) = encodedInt b := by
  induction hm : 32 - b.length generalizing b with
  | zero =>
    have hlen : b.length = 32 := by omega
    have hb : decodeBytes b = ofBytes b := by
      rw [← ofBytes_bytes (decodeBytes b), ← hlen, bytes_decodeBytes h]
    rw [hb, val, ofBytes, encodedInt, hlen]
  | succ m ih =>
    have hlen : (b ++ [padByte b]).length = b.length + 1 := by simp
    calc val (decodeBytes b) = val (decodeBytes (b ++ [padByte b])) := by
          rw [(decodeBytes_append_eq_iff _ (by omega)).mpr rfl]
      _ = encodedInt (b ++ [padByte b]) := ih (by omega) (by omega)
      _ = encodedInt b := encodedInt_append_padByte b

/-- `n` bytes of two's complement hold the value: the range of R101, doubled, which for no byte holds 0 alone. -/
def FitsBytes (n : Nat) (v : Int) : Prop := -(2 : Int) ^ (8 * n) ≤ v * 2 ∧ v * 2 < (2 : Int) ^ (8 * n)

theorem fitsBytes_zero_iff {v : Int} : FitsBytes 0 v ↔ v = 0 := by
  simp only [FitsBytes, Nat.mul_zero, pow_zero]; omega

theorem fitsBytes_iff {n : Nat} (hn : 1 ≤ n) {v : Int} :
    FitsBytes n v ↔ -(2 : Int) ^ (8 * n - 1) ≤ v ∧ v ≤ (2 : Int) ^ (8 * n - 1) - 1 := by
  rw [FitsBytes, show 8 * n = 8 * n - 1 + 1 by omega, pow_succ, Nat.add_sub_cancel]
  omega

theorem FitsBytes.mono {m n : Nat} {v : Int} (h : FitsBytes m v) (hmn : m ≤ n) : FitsBytes n v := by
  have hpow : (2 : Int) ^ (8 * m) ≤ 2 ^ (8 * n) := pow_le_pow_right₀ (by norm_num) (by omega)
  obtain ⟨hlow, hhigh⟩ := h
  constructor <;> omega

theorem fitsBytes_encodedInt (b : List Byte) : FitsBytes b.length (encodedInt b) := by
  rw [FitsBytes, encodedInt, Int.mul_comm]
  exact ⟨BitVec.le_two_mul_toInt, BitVec.two_mul_toInt_lt⟩

/-- Low bytes stand for the value modulo their width. -/
theorem encodedInt_bytes (x : Reg) {n : Nat} (hn : n ≤ 32) : encodedInt (bytes x n) = (val x).bmod (2 ^ (8 * n)) := by
  have hdvd : 2 ^ (8 * n) ∣ 2 ^ 256 := pow_dvd_pow 2 (by omega)
  rw [encodedInt, length_bytes, bytesToNat_bytes, val, BitVec.toInt_eq_toNat_bmod x, Int.bmod_bmod_of_dvd hdvd,
    BitVec.toInt_eq_toNat_bmod, BitVec.toNat_ofNat, Nat.mod_mod, Int.natCast_mod, Int.emod_bmod]

/-- The low `n` bytes of a value decode back to it exactly when `n` bytes hold it. -/
theorem decodeBytes_bytes_eq_iff_fitsBytes {x : Reg} {n : Nat} (hn : n ≤ 32) :
    decodeBytes (bytes x n) = x ↔ FitsBytes n (val x) := by
  rw [← BitVec.toInt_inj, ← val, ← val, val_decodeBytes (by simpa using hn)]
  constructor
  · intro h
    simpa [h] using fitsBytes_encodedInt (bytes x n)
  · rintro ⟨hlow, hhigh⟩
    rw [encodedInt_bytes x hn, Int.bmod_eq_of_le_mul_two (by simpa using hlow) (by simpa using hhigh)]

/-- Settles O22: byte by byte from the definition, then by words and by value. -/
theorem decodeBytesIsSignExtension : Obligations.DecodeBytesIsSignExtension := by
  intro b hb n pad c
  have hpad : pad = padByte b := by
    rcases List.eq_nil_or_concat' b with rfl | ⟨l, t, rfl⟩
    · rfl
    · simp [pad, n, padByte]
  have hbyte : ∀ k < 32, byte (decodeBytes b) k = c k := fun k hk => by rw [byte_decodeBytes b hk, ← hpad]
  refine ⟨hbyte, fun j hj => ?_, fun h0 => ?_, fun _ => val_decodeBytes hb⟩
  · rw [word_eq_bytes, hbyte _ (by omega), hbyte _ (by omega), hbyte _ (by omega), hbyte _ (by omega)]
  · rw [List.length_eq_zero_iff.mp h0]; decide

end Sys2Proof.Machine

namespace Sys2Proof.Machine

/-! ## The minimal length (40_codec.md R101) -/

theorem decodeBytes_bytes_all (x : Reg) : decodeBytes (bytes x 32) = x := by
  rw [decodeBytes_bytes_eq_iff le_rfl, bytes_succ, lastTopBit_append_singleton, msb_byte_last]
  exact ⟨rfl, fun k hk hk' => absurd hk' (by omega)⟩

/-- MinLen is in range, decodes back, and no shorter length does. -/
theorem minLen_spec (x : Reg) :
    minLen x ≤ 32 ∧ decodeBytes (bytes x (minLen x)) = x ∧ ∀ n < minLen x, decodeBytes (bytes x n) ≠ x := by
  cases h : (List.range (Config.maxLen + 1)).find? fun n => decodeBytes (bytes x n) == x with
  | none =>
    rw [List.find?_range_eq_none] at h
    simpa [decodeBytes_bytes_all] using h 32 (by decide)
  | some n =>
    rw [minLen, h, Option.getD_some]
    obtain ⟨hn, hmem, hleast⟩ := List.find?_range_eq_some.mp h
    exact ⟨Nat.le_of_lt_succ (List.mem_range.mp hmem), by simpa using hn, fun m hm => by simpa using hleast m hm⟩

theorem minLen_le (x : Reg) : minLen x ≤ 32 := (minLen_spec x).1

/-- DecodeBytes undoes the minimal encoding. -/
@[simp] theorem decodeBytes_minimalEncoding (x : Reg) : decodeBytes (minimalEncoding x) = x := (minLen_spec x).2.1

@[simp] theorem length_minimalEncoding (x : Reg) : (minimalEncoding x).length = minLen x := length_bytes _ _

/-- MinLen is at most `n` exactly when the low `n` bytes decode back: a longer range holds what a shorter one does. -/
theorem minLen_le_iff_decodeBytes {x : Reg} {n : Nat} (hn : n ≤ 32) :
    minLen x ≤ n ↔ decodeBytes (bytes x n) = x := by
  obtain ⟨hle, hback, hleast⟩ := minLen_spec x
  constructor
  · rw [decodeBytes_bytes_eq_iff_fitsBytes hn]
    exact ((decodeBytes_bytes_eq_iff_fitsBytes hle).mp hback).mono
  · intro h
    by_contra hlt
    exact hleast n (not_le.mp hlt) h

/-- MinLen is at most `n` exactly when `n` bytes hold the value. -/
theorem minLen_le_iff {x : Reg} {n : Nat} (hn : n ≤ 32) : minLen x ≤ n ↔ FitsBytes n (val x) :=
  (minLen_le_iff_decodeBytes hn).trans (decodeBytes_bytes_eq_iff_fitsBytes hn)

theorem minLen_eq_zero_iff {x : Reg} : minLen x = 0 ↔ x = 0 := by
  rw [← Nat.le_zero, minLen_le_iff (by omega), fitsBytes_zero_iff, ← BitVec.toInt_inj, val]
  rfl

/-- Settles O23: the search finds the least length, and the lengths that decode back are those that hold the value. -/
theorem minLenIsLeastLength : Obligations.MinLenIsLeastLength := by
  intro x
  obtain ⟨hle, hback, hleast⟩ := minLen_spec x
  exact ⟨decodeBytes_bytes_all x, hle, hback, hleast, minLen_eq_zero_iff,
    fun n hn hn' => (minLen_le_iff hn').trans (fitsBytes_iff hn)⟩

/-! ## The byte scan (R102) -/

@[simp] theorem msb_signByte (x : Reg) : (signByte x).msb = sign x := by
  rw [signByte]
  cases sign x <;> rfl

/-- MinLen is at most `n` exactly when the low `n` bytes have the sign and all bytes above them are the sign byte. -/
theorem minLen_le_iff_bytes {x : Reg} {n : Nat} (hn : n ≤ 32) :
    minLen x ≤ n ↔ lastTopBit (bytes x n) = sign x ∧ ∀ k, n ≤ k → k < 32 → byte x k = signByte x := by
  rw [minLen_le_iff_decodeBytes hn, decodeBytes_bytes_eq_iff hn]

theorem minLen_le_succ_iff {x : Reg} {n : Nat} (hn : n < 32) :
    minLen x ≤ n + 1 ↔ (byte x n).msb = sign x ∧ ∀ k, n < k → k < 32 → byte x k = signByte x := by
  rw [minLen_le_iff_bytes hn, bytes_succ, lastTopBit_append_singleton]
  rfl

/-- What the downward search finds: nothing, or the highest byte that is another one. -/
theorem highestOther_cases (x : Reg) (c : Byte) (n : Nat) :
    (highestOther x c n = none ∧ ∀ k < n, byte x k = c) ∨
      ∃ k < n, highestOther x c n = some k ∧ byte x k ≠ c ∧ ∀ m, k < m → m < n → byte x m = c := by
  induction n with
  | zero => exact .inl ⟨rfl, by simp⟩
  | succ n ih =>
    rw [highestOther]
    by_cases hn : byte x n = c
    · simp only [hn, bne_self_eq_false, Bool.false_eq_true, if_false]
      rcases ih with ⟨hnone, hall⟩ | ⟨k, hk, hsome, hne, habove⟩
      · exact .inl ⟨hnone, Nat.forall_lt_succ_right.mpr ⟨hall, hn⟩⟩
      · refine .inr ⟨k, by omega, hsome, hne, fun m hkm hm => ?_⟩
        rcases Nat.lt_succ_iff_lt_or_eq.mp hm with hlt | rfl
        · exact habove m hkm hlt
        · exact hn
    · exact .inr ⟨n, by omega, by simp [hn], hn, by omega⟩

/-- The two halves of the scan are one, over the sign byte. -/
theorem minLenScan_eq (x : Reg) :
    minLenScan x = match highestOther x (signByte x) 32 with
      | none => if sign x then 1 else 0
      | some k => if (byte x k).msb = sign x then k + 1 else k + 2 := by
  rw [minLenScan, signByte]
  cases sign x with
  | false =>
    simp only [Bool.false_eq_true, if_false]
    cases highestOther x 0x00 32 with
    | none => rfl
    | some k => cases h : (byte x k).msb <;> simp [h]
  | true => rfl

/-- Settles O24: where the highest byte that is not the sign byte stands, and its top bit, give the length. -/
theorem scanGivesMinLen : Obligations.ScanGivesMinLen := by
  intro x
  rw [minLenScan_eq]
  rcases highestOther_cases x (signByte x) 32 with ⟨hscan, hall⟩ | ⟨k, hk, hscan, hne, habove⟩ <;> rw [hscan]
  · have hle : minLen x ≤ 1 :=
      (minLen_le_succ_iff (by omega)).mpr ⟨by rw [hall 0 (by omega), msb_signByte], fun m _ hm => hall m hm⟩
    have hzero : minLen x ≤ 0 ↔ false = sign x ∧ ∀ m, 0 ≤ m → m < 32 → byte x m = signByte x :=
      minLen_le_iff_bytes (by omega)
    cases hs : sign x with
    | false => exact (Nat.le_zero.mp (hzero.mpr ⟨hs.symm, fun m _ hm => hall m hm⟩)).symm
    | true => exact le_antisymm (not_le.mp fun h => by simpa [hs] using (hzero.mp h).1) hle
  · have hlow : k < minLen x := by
      by_contra hge
      exact hne (((minLen_le_iff_bytes hk.le).mp (not_lt.mp hge)).2 k le_rfl hk)
    have hsucc : minLen x ≤ k + 1 ↔ (byte x k).msb = sign x := by
      rw [minLen_le_succ_iff hk]
      exact and_iff_left habove
    dsimp only
    split
    · next hmsb => exact le_antisymm hlow (hsucc.mpr hmsb)
    · next hmsb =>
      have hk31 : k ≠ 31 := by rintro rfl; exact hmsb (msb_byte_last x)
      have hnext : minLen x ≤ k + 1 + 1 :=
        (minLen_le_succ_iff (by omega)).mpr
          ⟨by rw [habove _ (by omega) (by omega), msb_signByte], fun m hm => habove m (by omega)⟩
      exact le_antisymm (not_le.mp (mt hsucc.mp hmsb)) hnext

end Sys2Proof.Machine

namespace Sys2Proof.Machine

/-! ## The wire check (40_codec.md R105) -/

/-- A last byte is redundant exactly when it is 0x00 and nothing before it needs it for the sign. -/
theorem wireCheckPasses_append_singleton (l : List Byte) (t : Byte) :
    wireCheckPasses (l ++ [t]) = (t != 0x00 || lastTopBit l) := by
  simp [wireCheckPasses, lastTopBit, List.head?_reverse]

/-- The byte before the last one carries the sign of the list without its last byte. -/
theorem lastTopBit_eq_msb_getD {l : List Byte} (h : l ≠ []) (t : Byte) :
    lastTopBit l = ((l ++ [t]).getD ((l ++ [t]).length - 2) 0).msb := by
  obtain ⟨m, u, rfl⟩ := (List.eq_nil_or_concat' l).resolve_left h
  simp

/-- Settles O25, by whether the list has a last byte. -/
theorem wireCheckRejectsRedundantZero : Obligations.WireCheckRejectsRedundantZero := by
  intro b
  rcases List.eq_nil_or_concat' b with rfl | ⟨l, t, rfl⟩
  · simp [wireCheckPasses]
  · rw [wireCheckPasses_append_singleton]
    rcases eq_or_ne l [] with rfl | hl
    · simp
    · have hpos : 1 ≤ l.length := List.length_pos_iff.mpr hl
      rw [← lastTopBit_eq_msb_getD hl]
      simp [hpos]

/-! ## Minimal encodings (R109) -/

theorem minimal_iff {b : List Byte} : minimal b = true ↔ b.length ≤ 32 ∧ b.length = minLen (decodeBytes b) := by
  simp [minimal]

theorem minLen_decodeBytes_le {b : List Byte} (h : b.length ≤ 32) : minLen (decodeBytes b) ≤ b.length := by
  rw [minLen_le_iff_decodeBytes h, bytes_decodeBytes h]

/-- A list is minimal exactly when sign extension would not supply its last byte. -/
theorem minimal_append_singleton_iff {l : List Byte} {t : Byte} :
    minimal (l ++ [t]) = true ↔ l.length < 32 ∧ t ≠ padByte l := by
  rw [minimal_iff, List.length_append, List.length_singleton]
  refine and_congr_right fun (hl : l.length < 32) => ?_
  have hlen : (l ++ [t]).length ≤ 32 := by simpa using hl
  have hlow : bytes (decodeBytes (l ++ [t])) l.length = l := by
    have hall := bytes_decodeBytes hlen
    rw [List.length_append, List.length_singleton, bytes_succ] at hall
    exact (List.append_inj' hall rfl).1
  calc l.length + 1 = minLen (decodeBytes (l ++ [t]))
      ↔ ¬ minLen (decodeBytes (l ++ [t])) ≤ l.length := by
        have := minLen_decodeBytes_le hlen
        rw [List.length_append, List.length_singleton] at this
        omega
    _ ↔ t ≠ padByte l := by
        rw [minLen_le_iff_decodeBytes hl.le, hlow, eq_comm, decodeBytes_append_eq_iff t hl]

/-- The three cases of R109. -/
theorem minimal_iff_cases {b : List Byte} :
    minimal b = true ↔ b.length = 0 ∨ (b.length = 1 ∧ b.getD 0 0 ≠ 0x00) ∨
      (2 ≤ b.length ∧ b.length ≤ 32 ∧
        b.getD (b.length - 1) 0 ≠ if (b.getD (b.length - 2) 0).msb then 0xFF else 0x00) := by
  rcases List.eq_nil_or_concat' b with rfl | ⟨l, t, rfl⟩
  · simpa using minimal_iff.mpr ⟨by simp, by decide⟩
  · rw [minimal_append_singleton_iff]
    rcases eq_or_ne l [] with rfl | hl
    · simp [padByte]
    · rw [← lastTopBit_eq_msb_getD hl, ← padByte]
      simp [hl, List.length_pos_iff, Nat.succ_le_iff]

theorem minimal_minimalEncoding (x : Reg) : minimal (minimalEncoding x) = true :=
  minimal_iff.mpr ⟨by simpa using minLen_le x, by simp⟩

/-- Encoding undoes the decoding of a minimal list. -/
theorem minimalEncoding_decodeBytes {b : List Byte} (h : minimal b = true) : minimalEncoding (decodeBytes b) = b := by
  obtain ⟨hle, hlen⟩ := minimal_iff.mp h
  rw [minimalEncoding, ← hlen, bytes_decodeBytes hle]

theorem length_minimalEncoding_decodeBytes_lt {b : List Byte} (hle : b.length ≤ 32) (h : minimal b = false) :
    (minimalEncoding (decodeBytes b)).length < b.length := by
  rw [length_minimalEncoding]
  refine lt_of_le_of_ne (minLen_decodeBytes_le hle) fun heq => ?_
  rw [minimal_iff.mpr ⟨hle, heq.symm⟩] at h
  cases h

theorem minimalEncoding_inj {x y : Reg} : minimalEncoding x = minimalEncoding y ↔ x = y :=
  ⟨fun h => by rw [← decodeBytes_minimalEncoding x, h, decodeBytes_minimalEncoding], congrArg _⟩

/-- The encoding of an integer is the only minimal list of its value. -/
theorem existsUnique_minimal {n : Int} (h : InRange n) : ∃! b, minimal b = true ∧ val (decodeBytes b) = n := by
  refine ⟨minimalEncoding (enc256 n), ⟨minimal_minimalEncoding _, ?_⟩, ?_⟩
  · rw [decodeBytes_minimalEncoding, val_enc256 h]
  · rintro b ⟨hmin, rfl⟩
    rw [enc256_val, minimalEncoding_decodeBytes hmin]

theorem wireCheckPasses_of_minimal {b : List Byte} (h : minimal b = true) : wireCheckPasses b = true := by
  rcases List.eq_nil_or_concat' b with rfl | ⟨l, t, rfl⟩
  · rfl
  · obtain ⟨-, hpad⟩ := minimal_append_singleton_iff.mp h
    rw [wireCheckPasses_append_singleton]
    cases htop : lastTopBit l with
    | true => simp
    | false => simpa [padByte, htop] using hpad

/-- Settles O29, law by law. -/
theorem encodingLaws : Obligations.EncodingLaws :=
  ⟨fun _ => minimal_iff, fun _ => minimal_iff_cases, decodeBytes_minimalEncoding,
    fun _ => minimalEncoding_decodeBytes,
    fun _ hle h => ⟨decodeBytes_minimalEncoding _, length_minimalEncoding_decodeBytes_lt hle h⟩,
    fun _ => existsUnique_minimal, fun _ _ => minimalEncoding_inj, fun _ => wireCheckPasses_of_minimal⟩

end Sys2Proof.Machine

namespace Sys2Proof.Machine

/-! ## Command words and errors (30_encoding.md R81; 60_exceptions.md R214) -/

/-- R81 in numbers. -/
theorem toNat_commandWord (op : BitVec 8) (d a b : BitVec 2) :
    (commandWord op d a b).toNat = op.toNat + 2 ^ 8 * d.toNat + 2 ^ 10 * a.toNat + 2 ^ 12 * b.toNat := by
  obtain ⟨hrsv, hop, hd, ha, hb⟩ := commandWord_fields op d a b
  simp only [rsvField, opField, dField, aField, bField, ← BitVec.toNat_inj, BitVec.extractLsb'_toNat,
    Nat.shiftRight_eq_div_pow, BitVec.ofNat_eq_ofNat, BitVec.toNat_ofNat] at hrsv hop hd ha hb
  omega

/-- The error a command takes is the state R214 describes. -/
theorem State.fail_eq_raised (s : State) (e : Err) : s.fail e = s.raised e.code := by cases e <;> rfl

/-! ## The commands of the codec (40_codec.md R106 to R108) -/

theorem exec_dec_of_le (d : XReg) {a : EBuf} {s : State} (h : (s.getE a).len.toNat ≤ 32) :
    exec (.dec d a) s = .next (s.setX d (decodeBytes (s.getE a).contents)).succeed := by
  rw [exec, execDec, readEnc_of_le h, commit_ok]

theorem exec_dec_of_lt (d : XReg) {a : EBuf} {s : State} (h : 32 < (s.getE a).len.toNat) :
    exec (.dec d a) s = .next (s.raised 2) := by
  rw [exec, execDec, readEnc_of_lt h, commit_error, State.fail_eq_raised, Err.code]

theorem exec_decw_of_lt (d : XReg) {a : EBuf} {s : State} (h : 32 < (s.getE a).len.toNat) :
    exec (.decw d a) s = .next (s.raised 2) := by
  rw [exec, execDecw, readEnc_of_lt h, commit_error, State.fail_eq_raised, Err.code]

theorem exec_decw_of_malformed (d : XReg) {a : EBuf} {s : State} (h : (s.getE a).len.toNat ≤ 32)
    (hwire : wireCheckPasses (s.getE a).contents = false) : exec (.decw d a) s = .next (s.raised 3) := by
  simp only [exec, execDecw, readEnc_of_le h, hwire, Bool.false_eq_true, if_false]
  rw [commit_error, State.fail_eq_raised, Err.code]

/-- Past the wire check, DECW is DEC. -/
theorem exec_decw_eq_exec_dec (d : XReg) {a : EBuf} {s : State} (h : (s.getE a).len.toNat ≤ 32)
    (hwire : wireCheckPasses (s.getE a).contents = true) : exec (.decw d a) s = exec (.dec d a) s := by
  simp only [exec, execDecw, execDec, readEnc_of_le h, hwire, if_true]

/-- Settles O26, by what reading the buffer answers. -/
theorem decRule : Obligations.DecRule := fun d a _ =>
  ⟨toNat_commandWord 0x01 d.index a.index 0, exec_dec_of_le d, exec_dec_of_lt d⟩

/-- R107's condition on the data bytes is the wire check on the bytes read. -/
theorem wireCheckPasses_contents_eq_false_iff {buf : Buffer 32} (h : buf.len.toNat ≤ 32) :
    wireCheckPasses buf.contents = false ↔
      1 ≤ buf.len.toNat ∧ buf.data.toList.getD (buf.len.toNat - 1) 0 = 0x00 ∧
        (buf.len.toNat = 1 ∨ (buf.data.toList.getD (buf.len.toNat - 2) 0).toNat < 0x80) := by
  have hget {k : Nat} (hk : k < buf.len.toNat) : buf.contents.getD k 0 = buf.data.toList.getD k 0 := by
    rw [List.getD_eq_getElem?_getD, buf.contents_getElem? hk, List.getD_eq_getElem?_getD]
  rw [wireCheckRejectsRedundantZero, Buffer.length_contents _ h]
  refine and_congr_right fun hpos => ?_
  rw [hget (by omega)]
  refine and_congr_right fun _ => ?_
  rcases hpos.eq_or_lt with hone | htwo
  · simp [← hone]
  · rw [hget (by omega), BitVec.msb_eq_decide, decide_eq_true_eq]
    omega

/-- Settles O27: the wire check on what is read, and DEC where it passes. -/
theorem decwRule : Obligations.DecwRule := by
  intro d a s n data malformed
  refine ⟨toNat_commandWord 0x02 d.index a.index 0, exec_decw_of_lt d, fun h hbad => ?_, fun h hgood => ?_⟩
  · exact exec_decw_of_malformed d h ((wireCheckPasses_contents_eq_false_iff h).mpr hbad)
  · have hwire := (Bool.not_eq_false _).mp (mt (wireCheckPasses_contents_eq_false_iff h).mp hgood)
    rw [exec_decw_eq_exec_dec d h hwire, exec_dec_of_le d h]
    rfl

theorem minimalEncoding_getD (x : Reg) (k : Nat) :
    (minimalEncoding x).getD k 0 = if k < minLen x then byte x k else 0x00 := by
  split
  · next h => rw [List.getD_eq_getElem?_getD, minimalEncoding, bytes_getElem? x _ k h, Option.getD_some]
  · next h => simp [Nat.le_of_not_lt h]

/-- The buffer ENC writes. -/
def encodedBuffer (x : Reg) : Buffer 32 := .ofBytes 32 (minimalEncoding x)

theorem toNat_len_encodedBuffer (x : Reg) : (encodedBuffer x).len.toNat = minLen x := by
  have := minLen_le x
  simp only [encodedBuffer, Buffer.ofBytes, length_minimalEncoding, BitVec.toNat_ofNat]
  omega

@[simp] theorem contents_encodedBuffer (x : Reg) : (encodedBuffer x).contents = minimalEncoding x := by
  have := minLen_le x
  exact Buffer.contents_ofBytes (by simpa using this) (by rw [length_minimalEncoding]; omega)

theorem exec_enc (d : EBuf) (a : XReg) (s : State) :
    exec (.enc d a) s = .next (s.setE d (encodedBuffer (s.getX a))).succeed := rfl

/-- Settles O28: the buffer is the one that holds the minimal encoding. -/
theorem encRule : Obligations.EncRule := fun d a s =>
  ⟨toNat_commandWord 0x03 d.index a.index 0, encodedBuffer (s.getX a), toNat_len_encodedBuffer _,
    fun k hk => by rw [← minimalEncoding_getD]; exact fill_getElem? 32 _ k hk, exec_enc d a s⟩

/-- On a buffer that ENC wrote, DEC and DECW write the encoded value. -/
theorem exec_dec_of_encoded (r : XReg) {b : EBuf} {t : State} {x : Reg} (h : t.getE b = encodedBuffer x) :
    exec (.dec r b) t = .next (t.setX r x).succeed ∧ exec (.decw r b) t = .next (t.setX r x).succeed := by
  have hlen : (t.getE b).len.toNat ≤ 32 := by rw [h, toNat_len_encodedBuffer]; exact minLen_le x
  have hcontents : (t.getE b).contents = minimalEncoding x := by rw [h, contents_encodedBuffer]
  have hwire : wireCheckPasses (t.getE b).contents = true := by
    rw [hcontents]; exact wireCheckPasses_of_minimal (minimal_minimalEncoding x)
  have hdec : exec (.dec r b) t = .next (t.setX r x).succeed := by
    rw [exec_dec_of_le r hlen, hcontents, decodeBytes_minimalEncoding]
  exact ⟨hdec, (exec_decw_eq_exec_dec r hlen hwire).trans hdec⟩

/-- Settles O30: ENC leaves a minimal encoding, on which DEC and DECW agree, and DEC leaves the value ENC encodes. -/
theorem encodeDecodeRoundTrips : Obligations.EncodeDecodeRoundTrips := by
  intro b c a r s
  constructor
  · obtain ⟨hdec, hdecw⟩ := exec_dec_of_encoded r (t := (s.setE b (encodedBuffer (s.getX a))).succeed)
      (State.getE_setE_self s b _)
    have hback := State.getX_setX_self (s.setE b (encodedBuffer (s.getX a))) r (s.getX a)
    exact ⟨_, _, _, exec_enc b a s, hdec, rfl, hback, hdecw, rfl, hback⟩
  · intro hlen
    have hlen' : (s.getE b).contents.length ≤ 32 := (Buffer.length_contents _ hlen).trans_le hlen
    let x := decodeBytes (s.getE b).contents
    have hx : (s.setX r x).succeed.getX r = x := State.getX_setX_self s r x
    have hbuf : (((s.setX r x).succeed.setE c (encodedBuffer x)).succeed.getE c).contents = minimalEncoding x :=
      (congrArg Buffer.contents (State.getE_setE_self _ c _)).trans (contents_encodedBuffer x)
    refine ⟨_, _, exec_dec_of_le r hlen, rfl, exec_enc c r _, rfl, ?_⟩
    rw [hx, hbuf]
    exact ⟨minimalEncoding_decodeBytes,
      fun h => ⟨length_minimalEncoding_decodeBytes_lt hlen' h, decodeBytes_minimalEncoding x⟩⟩

end Sys2Proof.Machine

namespace Sys2Proof.Machine

/-! ## The value of decimal digits (41_text.md R122) -/

/-- The number read once the digits `ds` follow those of `m`. -/
def digitsValue (m : Nat) (ds : List Byte) : Nat := ds.foldl (fun n c => n * 10 + digit c) m

@[simp] theorem digitsValue_nil (m : Nat) : digitsValue m [] = m := rfl

@[simp] theorem digitsValue_cons (m : Nat) (c : Byte) (ds : List Byte) :
    digitsValue m (c :: ds) = digitsValue (m * 10 + digit c) ds := by
  simp [digitsValue]

theorem digitsValue_append_singleton (m : Nat) (ds : List Byte) (c : Byte) :
    digitsValue m (ds ++ [c]) = digitsValue m ds * 10 + digit c := by
  simp [digitsValue]

/-- Reading more digits never makes the number smaller. -/
theorem le_digitsValue (m : Nat) (ds : List Byte) : m ≤ digitsValue m ds := by
  induction ds generalizing m with
  | nil => exact le_rfl
  | cons c ds ih => exact le_trans (by omega) (ih (m * 10 + digit c))

/-- A number under a sign. -/
def signedValue (neg : Bool) (m : Nat) : Int := if neg then -m else m

theorem decimalValue_eq (neg : Bool) (ds : List Byte) :
    decimalValue neg ds = signedValue neg (digitsValue 0 ds) := rfl

/-- Every integer is its absolute value under its sign. -/
theorem signedValue_natAbs (v : Int) : signedValue (decide (v < 0)) v.natAbs = v := by
  rw [signedValue]
  split
  · next h => rw [decide_eq_true_eq] at h; omega
  · next h => rw [decide_eq_true_eq] at h; omega

/-- Under one sign, a number below one in range is in range. -/
theorem inRange_signedValue_of_le {neg : Bool} {m n : Nat} (h : m ≤ n) (hn : InRange (signedValue neg n)) :
    InRange (signedValue neg m) := by
  rw [inRange_iff] at hn ⊢
  cases neg <;> simp only [signedValue, if_true, Bool.false_eq_true, if_false] at hn ⊢ <;> omega

/-! ## The chunk parser (R123) -/

/-- The value itself, or Overflow where it is out of range. -/
def checkRange (v : Int) : Except Err Int := if InRange v then .ok v else .error .overflow

theorem checkRange_of_inRange {v : Int} (h : InRange v) : checkRange v = .ok v := if_pos h

theorem checkRange_of_not_inRange {v : Int} (h : ¬ InRange v) : checkRange v = .error .overflow := if_neg h

/-- The product of a chunk lies between 0 and its result, so checking the result alone gives the same error. -/
theorem applyChunk_signedValue (neg : Bool) (m acc p : Nat) :
    applyChunk neg (signedValue neg m) acc p = checkRange (signedValue neg (m * p + acc)) := by
  have hproduct : signedValue neg m * p = signedValue neg (m * p) := by
    cases neg <;> simp [signedValue]
  have hsum : (if neg then signedValue neg (m * p) - acc else signedValue neg (m * p) + acc) =
      signedValue neg (m * p + acc) := by
    cases neg <;> simp [signedValue]; ring
  simp only [applyChunk, hproduct, hsum]
  by_cases h : InRange (signedValue neg (m * p))
  · rw [if_pos h, checkRange]
  · rw [if_neg h, checkRange_of_not_inRange (mt (inRange_signedValue_of_le (Nat.le_add_right _ _)) h)]

/-- Inside a chunk, the digits read so far stand for `m * p + acc`; at the start of one, `acc` and `p` are as they begin. -/
theorem parseDigits_signedValue (neg : Bool) (ds : List Byte) {m acc p n : Nat} (hm : InRange (signedValue neg m))
    (hstart : n = 0 → acc = 0 ∧ p = 1) :
    parseDigits neg ds (signedValue neg m) acc p n = checkRange (signedValue neg (digitsValue (m * p + acc) ds)) := by
  induction ds generalizing m acc p n with
  | nil =>
    rw [parseDigits, digitsValue_nil]
    split
    · next hn =>
      obtain ⟨rfl, rfl⟩ := hstart hn
      rw [Nat.mul_one, Nat.add_zero, checkRange_of_inRange hm]
    · exact applyChunk_signedValue neg m acc p
  | cons c ds ih =>
    have hread : (m * p + acc) * 10 + digit c = m * (p * 10) + (acc * 10 + digit c) := by ring
    rw [digitsValue_cons, hread]
    simp only [parseDigits, applyChunk_signedValue]
    split
    · by_cases hchunk : InRange (signedValue neg (m * (p * 10) + (acc * 10 + digit c)))
      · rw [checkRange_of_inRange hchunk]
        simpa using ih hchunk (acc := 0) (p := 1) (n := 0) (by simp)
      · rw [checkRange_of_not_inRange hchunk,
          checkRange_of_not_inRange (mt (inRange_signedValue_of_le (le_digitsValue _ ds)) hchunk)]
    · exact ih hm (by simp)

/-- The chunk parser is exact on any list of characters, each read as `digit` reads it. -/
theorem chunkParse_eq (neg : Bool) (ds : List Byte) :
    chunkParse neg ds =
      if InRange (decimalValue neg ds) then .ok (enc256 (decimalValue neg ds)) else .error .overflow := by
  have hzero : signedValue neg 0 = 0 := by simp [signedValue]
  have hparse := parseDigits_signedValue neg ds (m := 0) (acc := 0) (p := 1) (n := 0)
    (by rw [hzero]; decide) (by simp)
  rw [hzero, Nat.zero_mul, ← decimalValue_eq] at hparse
  rw [chunkParse, hparse]
  by_cases h : InRange (decimalValue neg ds)
  · rw [checkRange_of_inRange h, if_pos h]
  · rw [checkRange_of_not_inRange h, if_neg h]

/-- Settles O31, by the value read so far at each digit of each chunk. -/
theorem chunkParseIsExact : Obligations.ChunkParseIsExact := fun neg ds _ => chunkParse_eq neg ds

/-! ## Well-formed decimal texts (R121) -/

/-- `c` is one of `'0'..'9'`, as the statements write it. -/
abbrev DigitCode (c : Byte) : Prop := 0x30 ≤ c.toNat ∧ c.toNat ≤ 0x39

/-- The parser's test of a character (R121). -/
theorem isDigit_iff_digitCode (c : Byte) : isDigit c = true ↔ DigitCode c := by
  simp [isDigit]

/-- What the sign taken from a text leaves. -/
theorem takeSign_cases (t : List Byte) :
    (t = (takeSign t).2 ∧ (takeSign t).1 = false) ∨ (t = 0x2B :: (takeSign t).2 ∧ (takeSign t).1 = false) ∨
      (t = 0x2D :: (takeSign t).2 ∧ (takeSign t).1 = true) := by
  cases t with
  | nil => exact .inl ⟨rfl, rfl⟩
  | cons c rest =>
    rw [takeSign]
    split
    · next h => exact .inr (.inl ⟨by rw [h]; rfl, rfl⟩)
    · split
      · next h => exact .inr (.inr ⟨by rw [h]; rfl, rfl⟩)
      · exact .inl ⟨rfl, rfl⟩

/-- A digit is no sign, so the sign and the digits of a well-formed text are the ones taken from it. -/
theorem SignedDigits.takeSign_eq {t ds : List Byte} {neg : Bool} (h : SignedDigits t neg ds) :
    takeSign t = (neg, ds) := by
  obtain ⟨hne, hdigits, ⟨rfl, rfl⟩ | ⟨rfl, rfl⟩ | ⟨rfl, rfl⟩⟩ := h
  · cases t with
    | nil => exact absurd rfl hne
    | cons c rest =>
      have hlow := (hdigits c List.mem_cons_self).1
      have hplus : c ≠ charPlus := by rintro rfl; revert hlow; decide
      have hminus : c ≠ charMinus := by rintro rfl; revert hlow; decide
      rw [takeSign, if_neg hplus, if_neg hminus]
  · rfl
  · rfl

/-- `SplitSign` answers the sign and the digits of a well-formed text, and only of one. -/
theorem splitSign_eq_ok_iff (t ds : List Byte) (neg : Bool) :
    splitSign t = .ok (neg, ds) ↔ SignedDigits t neg ds := by
  constructor
  · intro h
    simp only [splitSign] at h
    split at h
    · cases h
    · next hne =>
      split at h
      · next hdigits =>
        have htake : takeSign t = (neg, ds) := by simpa using h
        have hcases := takeSign_cases t
        rw [htake] at hne hdigits hcases
        refine ⟨by simpa using hne, fun c hc => ?_, hcases⟩
        exact (isDigit_iff_digitCode c).mp (List.all_eq_true.mp hdigits c hc)
      · cases h
  · intro h
    have htake := h.takeSign_eq
    obtain ⟨hne, hcodes, -⟩ := h
    have hdigits : ds.all isDigit = true :=
      List.all_eq_true.mpr fun c hc => (isDigit_iff_digitCode c).mpr (hcodes c hc)
    simp [splitSign, htake, hne, hdigits]

theorem splitSign_error {t : List Byte} {e : Err} (h : splitSign t = .error e) : e = .invalidSyntax := by
  simp only [splitSign] at h
  split at h
  · cases h; rfl
  · split at h <;> cases h
    rfl

/-! ## PARSE (R124) -/

theorem parseText_of_signedDigits {t ds : List Byte} {neg : Bool} (h : SignedDigits t neg ds) :
    parseText t =
      if InRange (decimalValue neg ds) then .ok (enc256 (decimalValue neg ds)) else .error .overflow := by
  rw [parseText, (splitSign_eq_ok_iff t ds neg).mpr h]
  exact chunkParse_eq neg ds

theorem parseText_of_not_signedDigits {t : List Byte} (h : ∀ neg ds, ¬ SignedDigits t neg ds) :
    parseText t = .error .invalidSyntax := by
  rw [parseText]
  cases hsplit : splitSign t with
  | error e => rw [splitSign_error hsplit]
  | ok r => exact absurd ((splitSign_eq_ok_iff t r.2 r.1).mp hsplit) (h r.1 r.2)

theorem exec_parse_of_error (d : XReg) {s : State} {e : Err} (h : parseText s.tinText = .error e) :
    exec (.parse d) s = .next (s.raised e.code) := by
  rw [exec, execParse, h, commit_error, State.fail_eq_raised]

theorem exec_parse_of_inRange (d : XReg) {s : State} {neg : Bool} {ds : List Byte}
    (h : SignedDigits s.tinText neg ds) (hrange : InRange (decimalValue neg ds)) :
    exec (.parse d) s = .next (s.setX d (enc256 (decimalValue neg ds))).succeed := by
  rw [exec, execParse, parseText_of_signedDigits h, if_pos hrange, commit_ok]

/-- Settles O32, by what PARSE on the text answers. -/
theorem parseRule : Obligations.ParseRule := fun d _ =>
  ⟨toNat_commandWord 0x10 d.index 0 0,
    fun h => exec_parse_of_error d (parseText_of_not_signedDigits h),
    fun _ _ h hrange => exec_parse_of_error d ((parseText_of_signedDigits h).trans (if_neg hrange)),
    fun _ _ h hrange => exec_parse_of_inRange d h hrange⟩

/-! ## The characters of a number -/

theorem digit_digitChar {k : Nat} (h : k < 10) : digit (digitChar k) = k := by
  simp only [digit, digitChar, BitVec.toNat_ofNat]; omega

theorem digitChar_digit {c : Byte} (h : DigitCode c) : digitChar (digit c) = c := by
  apply BitVec.eq_of_toNat_eq
  simp only [digit, digitChar, BitVec.toNat_ofNat]; omega

/-- The character of a decimal digit is one of `'0'..'9'`. -/
theorem digitCode_digitChar {k : Nat} (h : k < 10) : DigitCode (digitChar k) := by
  simp only [DigitCode, digitChar, BitVec.toNat_ofNat]; omega

theorem digitCode_of_mem_decimalChars (n : Nat) : ∀ c ∈ decimalChars n, DigitCode c := by
  intro c hc
  obtain ⟨k, hk, rfl⟩ : ∃ k ∈ Nat.digits 10 n, digitChar k = c := by simpa [decimalChars] using hc
  exact digitCode_digitChar (Nat.digits_lt_base (by omega) hk)

theorem decimalChars_eq_nil_iff (n : Nat) : decimalChars n = [] ↔ n = 0 := by
  simp [decimalChars, Nat.digits_eq_nil_iff_eq_zero]

/-- The characters of a number stand for it. -/
theorem digitsValue_decimalChars (n : Nat) : digitsValue 0 (decimalChars n) = n := by
  induction n using Nat.strong_induction_on with
  | _ n ih =>
    rcases Nat.eq_zero_or_pos n with rfl | hn
    · simp [decimalChars]
    · rw [decimalChars_of_pos hn, digitsValue_append_singleton, ih (n / 10) (by omega),
        digit_digitChar (by omega)]
      omega

/-- One more digit after a number that is not 0 is one more character. -/
theorem decimalChars_mul_ten_add {m : Nat} {c : Byte} (hm : 0 < m * 10 + digit c)
    (hc : DigitCode c) : decimalChars (m * 10 + digit c) = decimalChars m ++ [c] := by
  have hlt : digit c < 10 := by rw [digit]; omega
  rw [decimalChars_of_pos hm, show (m * 10 + digit c) / 10 = m by omega,
    show (m * 10 + digit c) % 10 = digit c by omega, digitChar_digit hc]

/-- After a number that is not 0, digits are the number's further characters. -/
theorem decimalChars_digitsValue_of_pos {m : Nat} (hm : 0 < m) {ds : List Byte}
    (hds : ∀ c ∈ ds, DigitCode c) :
    decimalChars (digitsValue m ds) = decimalChars m ++ ds := by
  induction ds generalizing m with
  | nil => simp
  | cons c ds ih =>
    obtain ⟨hc, hds⟩ := List.forall_mem_cons.mp hds
    have hpos : 0 < m * 10 + digit c := by omega
    rw [digitsValue_cons, ih hpos hds, decimalChars_mul_ten_add hpos hc, List.append_assoc, List.singleton_append]

/-- Of digits, the number's own characters are the ones from the first that is not `'0'`. -/
theorem decimalChars_digitsValue {ds : List Byte} (hds : ∀ c ∈ ds, DigitCode c) :
    decimalChars (digitsValue 0 ds) = ds.dropWhile (· == charZero) := by
  induction ds with
  | nil => simp [decimalChars]
  | cons c ds ih =>
    obtain ⟨hc, htail⟩ := List.forall_mem_cons.mp hds
    rw [digitsValue_cons, List.dropWhile_cons]
    split
    · next hzero =>
      obtain rfl : c = charZero := by simpa using hzero
      exact ih htail
    · next hzero =>
      have hpos : 0 < 0 * 10 + digit c := by
        rw [Nat.zero_mul, Nat.zero_add]
        refine Nat.pos_of_ne_zero fun h => hzero ?_
        rw [← digitChar_digit hc, h]; rfl
      rw [decimalChars_digitsValue_of_pos hpos htail, decimalChars_mul_ten_add hpos hc]
      simp [decimalChars]

/-- A number's own characters do not begin with `'0'`. -/
theorem head?_decimalChars_ne_zero (n : Nat) : (decimalChars n).head? ≠ some charZero := by
  intro h
  have hfirst := List.head?_dropWhile_not (· == charZero) (decimalChars n)
  rw [dropWhile_zero_decimalChars, h] at hfirst
  simp at hfirst

/-- A number's own characters begin with no sign. -/
theorem head?_decimalChars_ne_of_not_digitCode (n : Nat) {c : Byte} (hc : ¬ DigitCode c) :
    (decimalChars n).head? ≠ some c :=
  fun h => hc (digitCode_of_mem_decimalChars n c (List.mem_of_mem_head? h))

/-! ## The canonical decimal (R125) -/

theorem canonicalDecimal_zero : canonicalDecimal 0 = [charZero] := rfl

/-- Away from zero, the canonical decimal is the number's own characters, after `-` under a minus sign. -/
theorem canonicalDecimal_signedValue (neg : Bool) {m : Nat} (hm : 0 < m) :
    canonicalDecimal (signedValue neg m) = (if neg then [charMinus] else []) ++ decimalChars m := by
  cases neg with
  | false =>
    have hne : (m : Int) ≠ 0 := by omega
    have hnonneg : ¬ (m : Int) < 0 := by omega
    simp only [canonicalDecimal, signedValue, Bool.false_eq_true, if_false, if_neg hne, if_neg hnonneg,
      Int.natAbs_natCast]
    rfl
  | true =>
    have hne : -(m : Int) ≠ 0 := by omega
    have hneg : -(m : Int) < 0 := by omega
    simp only [canonicalDecimal, signedValue, if_true, if_neg hne, if_pos hneg, Int.natAbs_neg, Int.natAbs_natCast]
    rfl

/-- An integer is zero, or a positive number under a sign. -/
theorem eq_zero_or_signedValue (v : Int) : v = 0 ∨ ∃ neg m, 0 < m ∧ v = signedValue neg m := by
  rcases eq_or_ne v 0 with hv | hv
  · exact .inl hv
  · exact .inr ⟨_, v.natAbs, Int.natAbs_pos.mpr hv, (signedValue_natAbs v).symm⟩

theorem length_decimalChars_le {m : Nat} (h : m ≤ 2 ^ 255) : (decimalChars m).length ≤ 77 := by
  have hlt : m < 10 ^ 77 := h.trans_lt (by decide)
  simpa [decimalChars] using (Nat.digits_length_le_iff (by omega) m).mpr hlt

/-- The canonical decimal of an integer in range has 1 to 78 characters. -/
theorem length_canonicalDecimal {v : Int} (h : InRange v) :
    1 ≤ (canonicalDecimal v).length ∧ (canonicalDecimal v).length ≤ 78 := by
  obtain rfl | ⟨neg, m, hm, rfl⟩ := eq_zero_or_signedValue v
  · decide
  · have hle : m ≤ 2 ^ 255 := by
      rw [inRange_iff] at h
      cases neg <;> simp only [signedValue, if_true, Bool.false_eq_true, if_false] at h <;> omega
    have hmost := length_decimalChars_le hle
    have hsome : 0 < (decimalChars m).length :=
      List.length_pos_of_ne_nil (mt (decimalChars_eq_nil_iff m).mp hm.ne')
    rw [canonicalDecimal_signedValue neg hm]
    cases neg <;> simp <;> omega

/-! ## FMT (R126, R127) -/

/-- Settles O33, by the text of the groups of the magnitude. -/
theorem formatGroupsIsCanonical : Obligations.FormatGroupsIsCanonical := formatGroups_eq_canonicalDecimal

/-- The text output FMT writes. -/
def formattedBuffer (v : Int) : Buffer 78 := .ofBytes 78 (canonicalDecimal v)

theorem toNat_len_formattedBuffer {v : Int} (h : InRange v) :
    (formattedBuffer v).len.toNat = (canonicalDecimal v).length := by
  have := (length_canonicalDecimal h).2
  simp only [formattedBuffer, Buffer.ofBytes, BitVec.toNat_ofNat]
  omega

theorem contents_formattedBuffer {v : Int} (h : InRange v) : (formattedBuffer v).contents = canonicalDecimal v := by
  have := (length_canonicalDecimal h).2
  exact Buffer.contents_ofBytes this (by omega)

theorem exec_fmt_eq (a : XReg) (s : State) :
    exec (.fmt a) s = .next { s with tout := formattedBuffer (val (s.getX a)), status := s.status.done } := by
  rw [exec, execFmt, formatGroups_eq_canonicalDecimal, commit_ok]
  rfl

/-- Settles O34: the buffer is the one that holds the canonical decimal. -/
theorem fmtRule : Obligations.FmtRule := by
  intro a s text
  have hrange := inRange_val (s.getX a)
  obtain ⟨hsome, hmost⟩ := length_canonicalDecimal hrange
  refine ⟨toNat_commandWord 0x11 0 a.index 0, hsome, hmost, formattedBuffer (val (s.getX a)),
    toNat_len_formattedBuffer hrange, fun k hk => ?_, exec_fmt_eq a s⟩
  rw [formattedBuffer, Buffer.ofBytes, fill_getElem? 78 _ k hk]
  split
  · rfl
  · next h => rw [List.getD_eq_default _ _ (Nat.le_of_not_lt h)]

/-! ## The laws of the decimal codec (R128) -/

/-- A canonical decimal is a well-formed text of its integer. -/
theorem signedDigits_canonicalDecimal (v : Int) :
    ∃ neg ds, SignedDigits (canonicalDecimal v) neg ds ∧ decimalValue neg ds = v := by
  obtain rfl | ⟨neg, m, hm, rfl⟩ := eq_zero_or_signedValue v
  · exact ⟨false, [charZero], ⟨by decide, by decide, .inl ⟨canonicalDecimal_zero, rfl⟩⟩, rfl⟩
  · refine ⟨neg, decimalChars m, ⟨mt (decimalChars_eq_nil_iff m).mp hm.ne', digitCode_of_mem_decimalChars m, ?_⟩, ?_⟩
    · rw [canonicalDecimal_signedValue neg hm]
      cases neg
      · exact .inl ⟨rfl, rfl⟩
      · exact .inr (.inr ⟨rfl, rfl⟩)
    · rw [decimalValue_eq, digitsValue_decimalChars]

/-- Law 1: PARSE undoes FMT. -/
theorem exec_parse_of_canonicalDecimal (x : Reg) (d : XReg) {s : State} (h : s.tinText = canonicalDecimal (val x)) :
    exec (.parse d) s = .next { s with x := s.x.set d x, status := s.status.done } := by
  obtain ⟨neg, ds, hdigits, hvalue⟩ := signedDigits_canonicalDecimal (val x)
  rw [exec_parse_of_inRange d (h ▸ hdigits) (hvalue ▸ inRange_val x), hvalue, enc256_val]
  rfl

/-- The normal form of a text: its digits without leading zeros, and no sign but `-`. -/
theorem canonicalDecimal_decimalValue {neg : Bool} {ds : List Byte}
    (hds : ∀ c ∈ ds, DigitCode c) :
    canonicalDecimal (decimalValue neg ds) =
      if decimalValue neg ds = 0 then [0x30]
      else (if neg then [0x2D] else []) ++ ds.dropWhile (· == 0x30) := by
  split
  · next h => rw [h, canonicalDecimal_zero]; rfl
  · next h =>
    have hpos : 0 < digitsValue 0 ds := by
      refine Nat.pos_of_ne_zero fun hzero => h ?_
      rw [decimalValue_eq, hzero]; simp [signedValue]
    rw [decimalValue_eq, canonicalDecimal_signedValue neg hpos, decimalChars_digitsValue hds]
    rfl

/-- Law 2: on the Register PARSE wrote, FMT writes the canonical decimal of the value. -/
theorem exec_fmt_of_parsed (d : XReg) (s : State) {v : Int} (h : InRange v) :
    ∃ u : State, exec (.fmt d) (s.setX d (enc256 v)).succeed = .next u ∧ u.tout.contents = canonicalDecimal v := by
  have hval : val ((s.setX d (enc256 v)).succeed.getX d) = v :=
    (congrArg val (State.getX_setX_self s d _)).trans (val_enc256 h)
  refine ⟨_, exec_fmt_eq d _, ?_⟩
  rw [hval, contents_formattedBuffer h]

/-- Law 3: a canonical decimal begins with no `+`, and with no `0` but that of zero, also after its `-`. -/
theorem canonicalDecimal_head (v : Int) :
    (canonicalDecimal v).head? ≠ some 0x2B ∧
      ((canonicalDecimal v).head? = some 0x30 → canonicalDecimal v = [0x30]) ∧
      ¬ [0x2D, 0x30] <+: canonicalDecimal v := by
  obtain rfl | ⟨neg, m, hm, rfl⟩ := eq_zero_or_signedValue v
  · decide
  · have hzero := head?_decimalChars_ne_zero m
    rw [canonicalDecimal_signedValue neg hm]
    cases neg with
    | false =>
      rw [if_neg Bool.false_ne_true, List.nil_append]
      refine ⟨fun h => ?_, fun h => absurd h hzero, fun ⟨cs, hcs⟩ => ?_⟩
      · exact head?_decimalChars_ne_of_not_digitCode m (by decide) h
      · exact head?_decimalChars_ne_of_not_digitCode m (c := charMinus) (by decide) (by rw [← hcs]; rfl)
    | true =>
      rw [if_pos rfl, List.singleton_append, List.head?_cons]
      refine ⟨by decide, fun h => absurd h (by decide), fun ⟨cs, hcs⟩ => ?_⟩
      exact hzero (by rw [← (List.cons.inj hcs).2]; rfl)

/-- Settles O35, by the three laws. -/
theorem decimalLaws : Obligations.DecimalLaws := by
  refine ⟨fun x d s => exec_parse_of_canonicalDecimal x d, fun d s neg ds h hrange => ?_, fun x => ?_⟩
  · obtain ⟨u, hfmt, htext⟩ := exec_fmt_of_parsed d s hrange
    have ⟨_, hcodes, _⟩ := h
    exact ⟨_, u, exec_parse_of_inRange d h hrange, hfmt, htext, canonicalDecimal_decimalValue hcodes⟩
  · exact ⟨(length_canonicalDecimal (inRange_val x)).2, canonicalDecimal_head (val x)⟩

end Sys2Proof.Machine

namespace Sys2Proof.Machine

/-! ## The comparison function, from the most significant byte down (42_compare.md R140) -/

@[simp] theorem cmpByte_self (u : Byte) : cmpByte u u = .eq := by simp [cmpByte]

/-- Two bytes that differ: one of them is the greater. -/
theorem cmpByte_of_ne {u v : Byte} (h : u ≠ v) : cmpByte u v = if v.toNat < u.toNat then .gt else .lt := by
  have hne : u.toNat ≠ v.toNat := mt BitVec.eq_of_toNat_eq h
  rw [cmpByte]
  split
  · rfl
  · rw [if_pos (by omega)]

theorem cmpUnsigned_cons (u v : Byte) (p q : List Byte) :
    cmpUnsigned (u :: p) (v :: q) = (cmpByte u v).then (cmpUnsigned p q) := by
  rw [cmpUnsigned]
  cases cmpByte u v <;> rfl

theorem cmpUnsigned_reverse_append_singleton (l m : List Byte) (s t : Byte) :
    cmpUnsigned (l ++ [s]).reverse (m ++ [t]).reverse = (cmpByte s t).then (cmpUnsigned l.reverse m.reverse) := by
  simp [cmpUnsigned_cons]

theorem cmpSameLength_cons (u v : Byte) (p q : List Byte) :
    cmpSameLength (u :: p) (v :: q) = (cmpByte (u ^^^ 0x80) (v ^^^ 0x80)).then (cmpUnsigned p q) := by
  rw [cmpSameLength]
  cases cmpByte (u ^^^ 0x80) (v ^^^ 0x80) <;> rfl

theorem cmpEnc_of_length_gt {a b : List Byte} (h : b.length < a.length) :
    cmpEnc a b = if lastTopBit a then .lt else .gt := by
  rw [cmpEnc, if_pos h]

theorem cmpEnc_of_length_lt {a b : List Byte} (h : a.length < b.length) :
    cmpEnc a b = if lastTopBit b then .gt else .lt := by
  rw [cmpEnc, if_neg h.not_gt, if_pos h]

@[simp] theorem cmpEnc_nil : cmpEnc [] [] = .eq := rfl

/-- Of lists of one length, the top bytes decide, then the bytes below them. -/
theorem cmpEnc_append_singleton {l m : List Byte} (h : l.length = m.length) (s t : Byte) :
    cmpEnc (l ++ [s]) (m ++ [t]) =
      (cmpByte (s ^^^ 0x80) (t ^^^ 0x80)).then (cmpUnsigned l.reverse m.reverse) := by
  simp [cmpEnc, h, cmpSameLength_cons]

theorem eq_append_singleton_of_length {a : List Byte} {n : Nat} (h : a.length = n + 1) :
    ∃ l t, a = l ++ [t] ∧ l.length = n := by
  obtain rfl | ⟨l, t, rfl⟩ := List.eq_nil_or_concat' a
  · cases h
  · exact ⟨l, t, rfl, by simpa using h⟩

/-- Of lists of one length, the highest byte that differs decides the unsigned comparison. -/
theorem cmpUnsigned_reverse_of_highest {l m : List Byte} (hlen : l.length = m.length) {k : Nat} (hk : k < l.length)
    (hne : l.getD k 0 ≠ m.getD k 0) (habove : ∀ j, k < j → j < l.length → l.getD j 0 = m.getD j 0) :
    cmpUnsigned l.reverse m.reverse = if (m.getD k 0).toNat < (l.getD k 0).toNat then .gt else .lt := by
  induction l using List.reverseRecOn generalizing m with
  | nil => cases hk
  | append_singleton l s ih =>
    obtain ⟨m, t, rfl, hm⟩ := eq_append_singleton_of_length (hlen.symm.trans List.length_append)
    have htop : (l ++ [s]).getD l.length 0 = s ∧ (m ++ [t]).getD l.length 0 = t := by simp [← hm]
    rw [cmpUnsigned_reverse_append_singleton]
    rw [List.length_append, List.length_singleton] at hk habove
    obtain hlt | rfl := (Nat.le_of_lt_succ hk).lt_or_eq
    · have hst : s = t := by rw [← htop.1, ← htop.2]; exact habove l.length hlt (Nat.lt_succ_self _)
      have hlow {j : Nat} (hj : j < l.length) :
          (l ++ [s]).getD j 0 = l.getD j 0 ∧ (m ++ [t]).getD j 0 = m.getD j 0 :=
        ⟨List.getD_append _ _ _ _ hj, List.getD_append _ _ _ _ (hm ▸ hj)⟩
      obtain ⟨hl, hr⟩ := hlow hlt
      rw [hl, hr] at hne ⊢
      rw [hst, cmpByte_self, Ordering.eq_then]
      refine ih hm.symm hlt hne fun j hkj hj => ?_
      have := habove j hkj (by omega)
      rwa [(hlow hj).1, (hlow hj).2] at this
    · rw [htop.1, htop.2] at hne ⊢
      rw [cmpByte_of_ne hne]
      split <;> rfl

/-! ## Lists of one length compare as their integers (R141) -/

theorem compare_add_right (x y w : Int) : compare (x + w) (y + w) = compare x y := by
  simp only [LinearOrder.compare_eq_compareOfLessAndEq, compareOfLessAndEq, Int.add_lt_add_iff_right,
    Int.add_left_inj]

/-- Numbers of two digits: the high digits decide, then the low ones. -/
theorem compare_low_add_high {x y w s t : Int} (hx : 0 ≤ x ∧ x < w) (hy : 0 ≤ y ∧ y < w) :
    compare (x + w * s) (y + w * t) = (compare s t).then (compare x y) := by
  obtain h | rfl | h := lt_trichotomy s t
  · have hlt : x + w * s < y + w * t := by nlinarith
    rw [compare_lt_iff_lt.mpr h, compare_lt_iff_lt.mpr hlt, Ordering.lt_then]
  · rw [compare_add_right, compare_eq_iff_eq.mpr rfl, Ordering.eq_then]
  · have hlt : y + w * t < x + w * s := by nlinarith
    rw [compare_gt_iff_gt.mpr h, compare_gt_iff_gt.mpr hlt, Ordering.gt_then]

theorem cmpByte_eq_compare (u v : Byte) : cmpByte u v = compare (u.toNat : Int) v.toNat := by
  rw [cmpByte]
  split
  · next h => exact (compare_gt_iff_gt.mpr (Int.ofNat_lt.mpr h)).symm
  · split
    · next h => exact (compare_lt_iff_lt.mpr (Int.ofNat_lt.mpr h)).symm
    · exact (compare_eq_iff_eq.mpr (by omega)).symm

/-- With its sign bit flipped, a byte stands for its signed value moved up by 128. -/
theorem toNat_xor_signBit : ∀ s : Byte, ((s ^^^ 0x80).toNat : Int) = s.toInt + 128 := by decide

theorem cmpByte_xor_signBit (s t : Byte) : cmpByte (s ^^^ 0x80) (t ^^^ 0x80) = compare s.toInt t.toInt := by
  rw [cmpByte_eq_compare, toNat_xor_signBit, toNat_xor_signBit, compare_add_right]

theorem bytesToNat_mem_range (l : List Byte) :
    0 ≤ (bytesToNat l : Int) ∧ (bytesToNat l : Int) < 2 ^ (8 * l.length) :=
  ⟨Int.natCast_nonneg _, mod_cast bytesToNat_lt l⟩

/-- Bytes under a higher digit: the digit decides, then the bytes. -/
theorem compare_bytesToNat_add_high {l m : List Byte} (h : l.length = m.length) (s t : Int) :
    compare (bytesToNat l + 2 ^ (8 * l.length) * s) (bytesToNat m + 2 ^ (8 * m.length) * t) =
      (compare s t).then (compare (bytesToNat l : Int) (bytesToNat m)) := by
  rw [← h]
  exact compare_low_add_high (bytesToNat_mem_range l) (h ▸ bytesToNat_mem_range m)

/-- From the most significant byte down, bytes compare as the unsigned numbers they stand for. -/
theorem cmpUnsigned_reverse {l m : List Byte} (h : l.length = m.length) :
    cmpUnsigned l.reverse m.reverse = compare (bytesToNat l : Int) (bytesToNat m) := by
  induction l using List.reverseRecOn generalizing m with
  | nil =>
    obtain rfl := List.length_eq_zero_iff.mp h.symm
    rfl
  | append_singleton l s ih =>
    obtain ⟨m, t, rfl, hm⟩ := eq_append_singleton_of_length (h.symm.trans List.length_append)
    rw [cmpUnsigned_reverse_append_singleton, ih hm.symm, cmpByte_eq_compare,
      ← compare_bytesToNat_add_high hm.symm, bytesToNat_append, bytesToNat_append]
    norm_cast

/-- The integer of an encoding: the top byte is signed, the bytes below it are not. -/
theorem encodedInt_append_singleton (l : List Byte) (s : Byte) :
    encodedInt (l ++ [s]) = bytesToNat l + 2 ^ (8 * l.length) * s.toInt := by
  rw [encodedInt_eq, bytesToNat_append, lastTopBit_append_singleton, BitVec.toInt_eq_msb_cond, List.length_append,
    List.length_singleton, Nat.mul_add, pow_add]
  cases s.msb with
  | false => simp
  | true => simp; ring

/-- Of lists of one length, minimal or not, CmpEnc is the order of the integers. -/
theorem cmpEnc_of_length_eq {a b : List Byte} (h : a.length = b.length) :
    cmpEnc a b = compare (encodedInt a) (encodedInt b) := by
  obtain rfl | ⟨l, s, rfl⟩ := List.eq_nil_or_concat' a
  · obtain rfl := List.length_eq_zero_iff.mp h.symm
    rfl
  · obtain ⟨m, t, rfl, hm⟩ := eq_append_singleton_of_length (h.symm.trans List.length_append)
    rw [cmpEnc_append_singleton hm.symm, cmpUnsigned_reverse hm.symm, cmpByte_xor_signBit,
      ← compare_bytesToNat_add_high hm.symm, encodedInt_append_singleton, encodedInt_append_singleton]

/-- Lists of one length are the same when their integers are. -/
theorem encodedInt_injective {a b : List Byte} (hlen : a.length = b.length) (h : encodedInt a = encodedInt b) :
    a = b := by
  refine bytesToNat_injective hlen ?_
  rw [encodedInt, encodedInt, hlen, BitVec.toInt_inj, ← BitVec.toNat_inj, BitVec.toNat_ofNat, BitVec.toNat_ofNat,
    Nat.mod_eq_of_lt (bytesToNat_lt b), Nat.mod_eq_of_lt (hlen ▸ bytesToNat_lt a)] at h
  exact h

/-- CmpEnc answers Equal on the same bytes only. -/
theorem cmpEnc_eq_iff {a b : List Byte} : cmpEnc a b = .eq ↔ a = b := by
  obtain h | h | h := lt_trichotomy a.length b.length
  · rw [cmpEnc_of_length_lt h]
    exact iff_of_false (by split <;> simp) (by rintro rfl; exact h.false)
  · rw [cmpEnc_of_length_eq h, compare_eq_iff_eq]
    exact ⟨encodedInt_injective h, congrArg _⟩
  · rw [cmpEnc_of_length_gt h]
    exact iff_of_false (by split <;> simp) (by rintro rfl; exact h.false)

theorem lastTopBit_eq_msb_last (b : List Byte) : lastTopBit b = (b.getD (b.length - 1) 0).msb := by
  obtain rfl | ⟨l, t, rfl⟩ := List.eq_nil_or_concat' b
  · rfl
  · simp

theorem eq_of_getD_eq {a b : List Byte} (hlen : a.length = b.length) (h : ∀ k < a.length, a.getD k 0 = b.getD k 0) :
    a = b :=
  List.ext_getElem hlen fun k hk hk' => by simpa [hk, hk'] using h k hk

/-- Settles O36: by the lengths, the flipped top bytes, the highest byte below them that differs, or none. -/
theorem cmpEncByIndex : Obligations.CmpEncByIndex := by
  intro a b
  refine ⟨fun h => ?_, fun h => ?_, fun ha hb => ?_, fun n ha hb => ?_⟩
  · rw [cmpEnc_of_length_gt h, lastTopBit_eq_msb_last]
  · rw [cmpEnc_of_length_lt h, lastTopBit_eq_msb_last]
  · rw [ha, hb, cmpEnc_nil]
  · intro x y
    obtain ⟨l, s, rfl, hl⟩ := eq_append_singleton_of_length ha
    obtain ⟨m, t, rfl, hm⟩ := eq_append_singleton_of_length hb
    have hlen : l.length = m.length := hl.trans hm.symm
    have hxn : x n = s := by simp [x, ← hl]
    have hyn : y n = t := by simp [y, ← hm]
    have hx {k : Nat} (hk : k < n) : x k = l.getD k 0 := List.getD_append _ _ _ _ (hl ▸ hk)
    have hy {k : Nat} (hk : k < n) : y k = m.getD k 0 := List.getD_append _ _ _ _ (hm ▸ hk)
    rw [cmpEnc_append_singleton hlen, hxn, hyn]
    refine ⟨fun hne => ?_, fun hst k hk hne habove => ?_, fun hst hall => ?_⟩
    · rw [cmpByte_of_ne (mt (BitVec.xor_left_inj _).mp hne)]
      split <;> rfl
    · rw [hst, cmpByte_self, Ordering.eq_then, hx hk, hy hk]
      refine cmpUnsigned_reverse_of_highest hlen (hl ▸ hk) (by rwa [← hx hk, ← hy hk]) fun j hkj hj => ?_
      rw [← hx (hl ▸ hj), ← hy (hl ▸ hj)]
      exact habove j hkj (hl ▸ hj)
    · have hlm : l = m := eq_of_getD_eq hlen fun k hk => by
        rw [← hx (hl ▸ hk), ← hy (hl ▸ hk)]
        exact hall k (hl ▸ hk)
      rw [← cmpEnc_append_singleton hlen, cmpEnc_eq_iff, hlm, hst]

/-! ## On minimal encodings CmpEnc is the order of the integers (R141) -/

theorem length_le_of_minimal {b : List Byte} (h : minimal b = true) : b.length ≤ 32 := (minimal_iff.mp h).1

/-- Fewer bytes than a minimal encoding has do not hold its integer. -/
theorem not_fitsBytes_of_minimal {a : List Byte} (h : minimal a = true) {n : Nat} (hn : n < a.length) :
    ¬ FitsBytes n (encodedInt a) := by
  obtain ⟨hle, hlen⟩ := minimal_iff.mp h
  rw [← val_decodeBytes hle, ← minLen_le_iff (by omega)]
  omega

/-- The top bit of an encoding is the sign of its integer. -/
theorem lastTopBit_iff_encodedInt_neg (a : List Byte) : lastTopBit a = true ↔ encodedInt a < 0 := by
  obtain ⟨hpos, hlt⟩ := bytesToNat_mem_range a
  rw [encodedInt_eq]
  cases lastTopBit a with
  | false => simp
  | true => simpa using hlt

/-- The integer of a minimal encoding is further from 0 than that of any shorter list: below it or above it by its own
sign. -/
theorem encodedInt_lt_or_gt_of_length_lt {a b : List Byte} (ha : minimal a = true) (h : b.length < a.length) :
    (lastTopBit a = true → encodedInt a < encodedInt b) ∧ (lastTopBit a = false → encodedInt b < encodedInt a) := by
  have hout := not_fitsBytes_of_minimal ha h
  obtain ⟨hlow, hhigh⟩ := fitsBytes_encodedInt b
  have hpow : (0 : Int) < 2 ^ (8 * b.length) := by positivity
  rw [FitsBytes] at hout
  rw [← Bool.not_eq_true, lastTopBit_iff_encodedInt_neg]
  constructor <;> intro hsign <;> omega

theorem cmpEnc_of_minimal {a b : List Byte} (ha : minimal a = true) (hb : minimal b = true) :
    cmpEnc a b = compare (encodedInt a) (encodedInt b) := by
  obtain h | h | h := lt_trichotomy a.length b.length
  · obtain ⟨hneg, hpos⟩ := encodedInt_lt_or_gt_of_length_lt hb h
    rw [cmpEnc_of_length_lt h]
    cases hsign : lastTopBit b with
    | false => exact (compare_lt_iff_lt.mpr (hpos hsign)).symm
    | true => exact (compare_gt_iff_gt.mpr (hneg hsign)).symm
  · exact cmpEnc_of_length_eq h
  · obtain ⟨hneg, hpos⟩ := encodedInt_lt_or_gt_of_length_lt ha h
    rw [cmpEnc_of_length_gt h]
    cases hsign : lastTopBit a with
    | false => exact (compare_gt_iff_gt.mpr (hpos hsign)).symm
    | true => exact (compare_lt_iff_lt.mpr (hneg hsign)).symm

/-- R141, law 1. -/
theorem cmpEnc_eq_compare_val {a b : List Byte} (ha : minimal a = true) (hb : minimal b = true) :
    cmpEnc a b = compare (val (decodeBytes a)) (val (decodeBytes b)) := by
  rw [cmpEnc_of_minimal ha hb, val_decodeBytes (length_le_of_minimal ha), val_decodeBytes (length_le_of_minimal hb)]

/-- Settles O37: the laws are those of the integers, by the value of each minimal list. -/
theorem compareIsIntegerOrder : Obligations.CompareIsIntegerOrder := by
  refine ⟨fun a b ha hb => ⟨cmpEnc_eq_compare_val ha hb, ?_⟩, fun a b c ha hb hc => ?_, fun _ _ => cmpEnc_eq_iff⟩
  · rw [cmpEnc_of_minimal ha hb, cmpEnc_of_minimal hb ha]
    exact Std.OrientedCmp.eq_swap
  · rw [cmpEnc_of_minimal ha hb, cmpEnc_of_minimal hb hc, cmpEnc_of_minimal ha hc, compare_le_iff_le,
      compare_le_iff_le, compare_le_iff_le]
    exact le_trans

end Sys2Proof.Machine

namespace Sys2Proof.Machine

/-! ## The commands of the comparator (42_compare.md R142 to R150) -/

theorem readPair_of_le {a b : EBuf} {s : State} (ha : (s.getE a).len.toNat ≤ 32) (hb : (s.getE b).len.toNat ≤ 32) :
    readPair s a b = .ok ((s.getE a).contents, (s.getE b).contents) := by
  rw [readPair, readEnc_of_le ha, readEnc_of_le hb]

theorem readPair_of_lt {a b : EBuf} {s : State} (h : 32 < (s.getE a).len.toNat ∨ 32 < (s.getE b).len.toNat) :
    readPair s a b = .error .tooLong := by
  obtain ⟨_, hread⟩ | ⟨ha, hb, _⟩ := readPair_cases s a b
  · exact hread
  · exact absurd h (not_or.mpr ⟨ha.not_gt, hb.not_gt⟩)

/-- CR's two bits hold the sign of the comparison (10_state.md R34). -/
theorem crOf_eq_ofInt_sgnOf (c : Ordering) : crOf c = BitVec.ofInt 2 (sgnOf c) := by cases c <;> rfl

theorem sgnOf_inj {c d : Ordering} : sgnOf c = sgnOf d ↔ c = d := by cases c <;> cases d <;> decide

theorem exec_cmp_of_le {a b : EBuf} {s : State} (ha : (s.getE a).len.toNat ≤ 32) (hb : (s.getE b).len.toNat ≤ 32) :
    exec (.cmp a b) s = .next (s.setCR (cmpEnc (s.getE a).contents (s.getE b).contents)).succeed := by
  rw [exec, execCmp, readPair_of_le ha hb, commit_ok]

theorem exec_cmp_of_lt {a b : EBuf} {s : State} (h : 32 < (s.getE a).len.toNat ∨ 32 < (s.getE b).len.toNat) :
    exec (.cmp a b) s = .next (s.raised 2) := by
  rw [exec, execCmp, readPair_of_lt h, commit_error, State.fail_eq_raised, Err.code]

/-- Settles O38, by what reading the two buffers answers. -/
theorem cmpRule : Obligations.CmpRule := by
  intro a b s
  refine ⟨toNat_commandWord 0x20 0 a.index b.index, exec_cmp_of_lt, fun ha hb => ?_⟩
  rw [exec_cmp_of_le ha hb, Status.doneCR, ← crOf_eq_ofInt_sgnOf]
  rfl

/-- The shared template, for a predicate of the comparison that is `truth` of its sign. -/
theorem comparePredicate_rule {p : Ordering → Bool} {truth : Int → Bool} (hp : ∀ o, p o = truth (sgnOf o))
    (a b : EBuf) (s : State) :
    let c := sgnOf (cmpEnc (s.getE a).contents (s.getE b).contents)
    (32 < (s.getE a).len.toNat ∨ 32 < (s.getE b).len.toNat → comparePredicate p a b s = .next (s.raised 2)) ∧
    ((s.getE a).len.toNat ≤ 32 → (s.getE b).len.toNat ≤ 32 →
      comparePredicate p a b s = .next { s with status := ⟨0, false, BitVec.ofInt 2 c, truth c⟩ }) := by
  intro c
  refine ⟨fun h => ?_, fun ha hb => ?_⟩
  · rw [comparePredicate, readPair_of_lt h, commit_error, State.fail_eq_raised, Err.code]
  · rw [comparePredicate, readPair_of_le ha hb, commit_ok, ← crOf_eq_ofInt_sgnOf, ← hp]
    rfl

theorem tEq_eq_sgnOf (c : Ordering) : tEq c = (sgnOf c == 0) := by cases c <;> rfl

theorem tNe_eq_sgnOf (c : Ordering) : tNe c = (sgnOf c != 0) := by cases c <;> rfl

theorem tLt_eq_sgnOf (c : Ordering) : tLt c = (sgnOf c == -1) := by cases c <;> rfl

theorem tLe_eq_sgnOf (c : Ordering) : tLe c = (sgnOf c != 1) := by cases c <;> rfl

theorem tGt_eq_sgnOf (c : Ordering) : tGt c = (sgnOf c == 1) := by cases c <;> rfl

theorem tGe_eq_sgnOf (c : Ordering) : tGe c = (sgnOf c != -1) := by cases c <;> rfl

/-- Settles O39: each predicate is the shared template with its own truth function. -/
theorem predicateRules : Obligations.PredicateRules := by
  intro a b s i op truth hmem c
  have hrule (p : Ordering → Bool) (hp : ∀ o, p o = truth (sgnOf o)) := comparePredicate_rule hp a b s
  simp only [List.mem_cons, Prod.mk.injEq, List.not_mem_nil, or_false] at hmem
  obtain ⟨rfl, rfl, rfl⟩ | ⟨rfl, rfl, rfl⟩ | ⟨rfl, rfl, rfl⟩ | ⟨rfl, rfl, rfl⟩ | ⟨rfl, rfl, rfl⟩ | ⟨rfl, rfl, rfl⟩ :=
    hmem
  · exact ⟨toNat_commandWord 0x21 0 a.index b.index, hrule _ tEq_eq_sgnOf⟩
  · exact ⟨toNat_commandWord 0x22 0 a.index b.index, hrule _ tNe_eq_sgnOf⟩
  · exact ⟨toNat_commandWord 0x23 0 a.index b.index, hrule _ tLt_eq_sgnOf⟩
  · exact ⟨toNat_commandWord 0x24 0 a.index b.index, hrule _ tLe_eq_sgnOf⟩
  · exact ⟨toNat_commandWord 0x25 0 a.index b.index, hrule _ tGt_eq_sgnOf⟩
  · exact ⟨toNat_commandWord 0x26 0 a.index b.index, hrule _ tGe_eq_sgnOf⟩

/-! ## MIN and MAX (R149, R150) -/

/-- The list MIN or MAX copies: B's where the comparison picks it, else A's. -/
def selected (pickB : Ordering) (x y : List Byte) : List Byte := if cmpEnc x y = pickB then y else x

theorem compareSelect_of_le (pickB : Ordering) (d : EBuf) {a b : EBuf} {s : State}
    (ha : (s.getE a).len.toNat ≤ 32) (hb : (s.getE b).len.toNat ≤ 32) :
    let x := (s.getE a).contents
    let y := (s.getE b).contents
    compareSelect pickB d a b s =
      .next { s with
        e := s.e.set d (.ofBytes 32 (selected pickB x y)), status := s.status.doneCR (sgnOf (cmpEnc x y)) } := by
  intro x y
  rw [compareSelect, readPair_of_le ha hb, commit_ok, Status.doneCR, ← crOf_eq_ofInt_sgnOf]
  rfl

/-- A buffer written whole with at most 32 bytes: its length, and every byte of its data. -/
theorem Buffer.ofBytes_spec {r : List Byte} (h : r.length ≤ 32) :
    (Buffer.ofBytes 32 r).len.toNat = r.length ∧
      ∀ k < 32, (Buffer.ofBytes 32 r).data.toList[k]? = some (if k < r.length then r.getD k 0 else 0x00) := by
  refine ⟨?_, fun k hk => ?_⟩
  · simp only [Buffer.ofBytes, BitVec.toNat_ofNat]
    omega
  · rw [Buffer.ofBytes, fill_getElem? 32 _ k hk]
    split
    · rfl
    · next hlen => rw [List.getD_eq_default _ _ (Nat.le_of_not_lt hlen)]

theorem length_selected_le (pickB : Ordering) {x y : List Byte} (hx : x.length ≤ 32) (hy : y.length ≤ 32) :
    (selected pickB x y).length ≤ 32 := by
  rw [selected]
  split
  · exact hy
  · exact hx

/-- The shared template of MIN and MAX, for a pick whose sign is `pickB`. -/
theorem compareSelect_rule {o : Ordering} {pickB : Int} (ho : sgnOf o = pickB) (d a b : EBuf) (s : State) :
    let x := (s.getE a).contents
    let y := (s.getE b).contents
    let c := sgnOf (cmpEnc x y)
    let r := if c = pickB then y else x
    (32 < (s.getE a).len.toNat ∨ 32 < (s.getE b).len.toNat → compareSelect o d a b s = .next (s.raised 2)) ∧
    ((s.getE a).len.toNat ≤ 32 → (s.getE b).len.toNat ≤ 32 →
      ∃ buf : Buffer 32,
        buf.len.toNat = r.length ∧
        (∀ k < 32, buf.data.toList[k]? = some (if k < r.length then r.getD k 0 else 0x00)) ∧
        compareSelect o d a b s = .next { s with e := s.e.set d buf, status := s.status.doneCR c }) := by
  intro x y c r
  refine ⟨fun h => ?_, fun ha hb => ?_⟩
  · rw [compareSelect, readPair_of_lt h, commit_error, State.fail_eq_raised, Err.code]
  · have hr : selected o x y = r := by simp only [selected, r, c, ← ho, sgnOf_inj]
    have hlen : (selected o x y).length ≤ 32 := length_selected_le o ((Buffer.length_contents _ ha).trans_le ha)
      ((Buffer.length_contents _ hb).trans_le hb)
    obtain ⟨hbuflen, hbufdata⟩ := Buffer.ofBytes_spec hlen
    rw [← hr]
    exact ⟨_, hbuflen, hbufdata, compareSelect_of_le o d ha hb⟩

/-- Settles O40: MIN and MAX are the shared template with their own picks. -/
theorem minMaxRules : Obligations.MinMaxRules := by
  intro d a b s i op pickB hmem x y c r
  have hrule (o : Ordering) (ho : sgnOf o = pickB) := compareSelect_rule ho d a b s
  simp only [List.mem_cons, Prod.mk.injEq, List.not_mem_nil, or_false] at hmem
  obtain ⟨rfl, rfl, rfl⟩ | ⟨rfl, rfl, rfl⟩ := hmem
  · exact ⟨toNat_commandWord 0x27 d.index a.index b.index, hrule .gt rfl⟩
  · exact ⟨toNat_commandWord 0x28 d.index a.index b.index, hrule .lt rfl⟩

/-- On the encodings of two values, the template leaves the encoding of one of them, picked by their order. -/
theorem compareSelect_of_encoded (pickB : Ordering) (d : EBuf) {a b : EBuf} {s : State} {x y : Reg}
    (ha : s.getE a = encodedBuffer x) (hb : s.getE b = encodedBuffer y) :
    ∃ t, compareSelect pickB d a b s = .next t ∧
      t.getE d = encodedBuffer (if compare (val x) (val y) = pickB then y else x) := by
  have hlen (z : Reg) : (encodedBuffer z).len.toNat ≤ 32 := (toNat_len_encodedBuffer z).trans_le (minLen_le z)
  refine ⟨_, compareSelect_of_le pickB d (ha ▸ hlen x) (hb ▸ hlen y), (EBufs.get_set_self _ _ _).trans ?_⟩
  rw [ha, hb, contents_encodedBuffer, contents_encodedBuffer, selected,
    cmpEnc_eq_compare_val (minimal_minimalEncoding x) (minimal_minimalEncoding y), decodeBytes_minimalEncoding,
    decodeBytes_minimalEncoding, encodedBuffer, apply_ite minimalEncoding]

/-- Settles O41: the comparison of the encodings is that of the values, and the copied list is the encoding picked. -/
theorem minMaxPickTheInteger : Obligations.MinMaxPickTheInteger := by
  intro d a b x y s ha hb
  obtain ⟨t, hmin, ht⟩ := compareSelect_of_encoded .gt d ha hb
  obtain ⟨u, hmax, hu⟩ := compareSelect_of_encoded .lt d ha hb
  refine ⟨⟨t, hmin, ?_⟩, u, hmax, ?_⟩
  · rw [ht, contents_encodedBuffer, decodeBytes_minimalEncoding, apply_ite val]
    simp only [compare_gt_iff_gt]
    rw [min_comm, min_def_lt]
  · rw [hu, contents_encodedBuffer, decodeBytes_minimalEncoding, apply_ite val]
    simp only [compare_lt_iff_lt]
    rw [max_def_lt]

end Sys2Proof.Machine

namespace Sys2Proof.Machine

/-! ## The raw results are the exact ones mod 2^256 (43_arith.md R170) -/

/-- Eight words that stand for `n` mod 2^256 make the Register value of `n`. -/
theorem ofWords_eq_enc256 {l : List Word} {n : Int} (h : (wordsToNat l : Int) ≡ n [ZMOD 2 ^ 256]) :
    ofWords l = enc256 n := by
  rw [ofWords, enc256, ← BitVec.ofInt_natCast]
  apply BitVec.eq_of_toNat_eq
  rw [BitVec.toNat_ofInt, BitVec.toNat_ofInt]
  exact congrArg Int.toNat h

theorem toNat_modEq_val (x : Reg) : (x.toNat : Int) ≡ val x [ZMOD 2 ^ 256] := by
  rw [val, BitVec.toInt_eq_toNat_bmod]
  exact (Int.bmod_emod).symm

theorem rawNeg_eq_enc256 (x : Reg) : rawNeg x = enc256 (-val x) := by
  have hloop := wordsToNat_negWords (words x) 1
  rw [length_words, wordsToNat_words, Nat.cast_one, sub_self, zero_sub] at hloop
  exact ofWords_eq_enc256 (hloop.trans (toNat_modEq_val x).neg)

theorem rawAdd_eq_enc256 (x y : Reg) : rawAdd x y = enc256 (val x + val y) := by
  have hloop := wordsToNat_addWords (l := words x) (m := words y) (by simp) 0
  rw [length_words, wordsToNat_words, wordsToNat_words, Nat.cast_zero, add_zero] at hloop
  exact ofWords_eq_enc256 (hloop.trans ((toNat_modEq_val x).add (toNat_modEq_val y)))

theorem rawSub_eq_enc256 (x y : Reg) : rawSub x y = enc256 (val x - val y) := by
  have hloop := wordsToNat_subWords (l := words x) (m := words y) (by simp) 0 zero_le_one
  rw [length_words, wordsToNat_words, wordsToNat_words, Nat.cast_zero, sub_zero] at hloop
  exact ofWords_eq_enc256 (hloop.trans ((toNat_modEq_val x).sub (toNat_modEq_val y)))

/-! ## The sign tests are the range tests (R171 to R173) -/

theorem sign_eq_decide (x : Reg) : sign x = decide (val x < 0) := by
  rw [Bool.eq_iff_iff, sign_iff_val_neg, decide_eq_true_eq]

/-- A number that is out of range by less than the range's size wraps once, which turns its sign over. -/
theorem sign_enc256 {n : Int} (hlow : -(2 : Int) ^ 256 ≤ n) (hhigh : n < (2 : Int) ^ 256) :
    sign (enc256 n) = decide (n < 0 ↔ InRange n) := by
  rw [sign_eq_decide, decide_eq_decide, inRange_iff, val, enc256, BitVec.toInt_ofInt, Int.bmod_def]
  omega

theorem not_inRange_add_iff (x y : Reg) :
    ¬ InRange (val x + val y) ↔ sign x = sign y ∧ sign (enc256 (val x + val y)) ≠ sign x := by
  have hx := (inRange_iff _).mp (inRange_val x)
  have hy := (inRange_iff _).mp (inRange_val y)
  rw [sign_enc256 (by omega) (by omega), sign_eq_decide, sign_eq_decide, Ne, decide_eq_decide, decide_eq_decide,
    inRange_iff]
  omega

theorem not_inRange_sub_iff (x y : Reg) :
    ¬ InRange (val x - val y) ↔ sign x ≠ sign y ∧ sign (enc256 (val x - val y)) ≠ sign x := by
  have hx := (inRange_iff _).mp (inRange_val x)
  have hy := (inRange_iff _).mp (inRange_val y)
  rw [sign_enc256 (by omega) (by omega), sign_eq_decide, sign_eq_decide, Ne, Ne, decide_eq_decide, decide_eq_decide,
    inRange_iff]
  omega

/-- Of all representable numbers only the most negative one has no representable negation. -/
theorem inRange_neg_val_iff (x : Reg) : InRange (-val x) ↔ val x ≠ -(2 : Int) ^ 255 := by
  have hx := (inRange_iff _).mp (inRange_val x)
  rw [inRange_iff]
  omega

theorem negOverflows_iff (x : Reg) : negOverflows x = true ↔ ¬ InRange (-val x) := by
  rw [inRange_neg_val_iff, not_not, negOverflows, beq_iff_eq, ← BitVec.toInt_inj, BitVec.toInt_intMin]
  rfl

theorem addOverflows_rawAdd_iff (x y : Reg) :
    addOverflows x y (rawAdd x y) = true ↔ ¬ InRange (val x + val y) := by
  rw [not_inRange_add_iff, rawAdd_eq_enc256, addOverflows, Bool.and_eq_true, beq_iff_eq, bne_iff_ne]

theorem subOverflows_rawSub_iff (x y : Reg) :
    subOverflows x y (rawSub x y) = true ↔ ¬ InRange (val x - val y) := by
  rw [not_inRange_sub_iff, rawSub_eq_enc256, subOverflows, Bool.and_eq_true, bne_iff_ne, bne_iff_ne]

/-! ## What NEG, ADD and SUB share: the exact result stored, or Overflow -/

/-- The state after a command whose exact result for `X[d]` is `n`: `n` stored, or Overflow taken where it does not fit. -/
def State.storeInt (s : State) (d : XReg) (n : Int) : State :=
  if InRange n then (s.setX d (enc256 n)).succeed else s.raised 5

theorem State.storeInt_of_inRange (s : State) (d : XReg) {n : Int} (h : InRange n) :
    s.storeInt d n = { s with x := s.x.set d (enc256 n), status := s.status.done } := if_pos h

theorem State.storeInt_of_not_inRange (s : State) (d : XReg) {n : Int} (h : ¬ InRange n) :
    s.storeInt d n = s.raised 5 := if_neg h

theorem State.err_storeInt (s : State) (d : XReg) (n : Int) :
    (s.storeInt d n).status.err = if InRange n then 0 else 5 := by
  rw [storeInt]
  split <;> rfl

theorem State.err_storeInt_eq_zero_iff {s : State} {d : XReg} {n : Int} :
    (s.storeInt d n).status.err = 0 ↔ InRange n := by
  rw [err_storeInt]
  split
  · next hin => exact iff_of_true rfl hin
  · next hout => exact iff_of_false (by decide) hout

theorem State.err_storeInt_eq_five_iff {s : State} {d : XReg} {n : Int} :
    (s.storeInt d n).status.err = 5 ↔ ¬ InRange n := by
  rw [err_storeInt]
  split
  · next hin => exact iff_of_false (by decide) (not_not.mpr hin)
  · next hout => exact iff_of_true rfl hout

theorem State.getX_storeInt_self (s : State) (d : XReg) {n : Int} (h : InRange n) :
    (s.storeInt d n).getX d = enc256 n := by
  rw [storeInt_of_inRange s d h]
  exact XRegs.get_set_self _ _ _

theorem State.getX_storeInt_of_ne (s : State) {d r : XReg} (n : Int) (h : r ≠ d) :
    (s.storeInt d n).getX r = s.getX r := by
  rw [storeInt]
  split
  · exact s.getX_setX_of_ne _ h
  · rfl

/-- The `commit` of a raw result whose overflow test is the range test. -/
theorem commit_eq_storeInt {overflows : Bool} {n : Int} (h : overflows = true ↔ ¬ InRange n) (d : XReg) (s : State) :
    commit s (if overflows = true then .error .overflow else .ok (s.setX d (enc256 n))) = .next (s.storeInt d n) := by
  by_cases hin : InRange n
  · rw [if_neg (mt h.mp (not_not.mpr hin)), commit_ok, State.storeInt, if_pos hin]
  · rw [if_pos (h.mpr hin), commit_error, State.fail_eq_raised, Err.code, s.storeInt_of_not_inRange d hin]

theorem exec_neg_eq (d a : XReg) (s : State) : exec (.neg d a) s = .next (s.storeInt d (-val (s.getX a))) := by
  rw [exec, execNeg, rawNeg_eq_enc256]
  exact commit_eq_storeInt (negOverflows_iff _) d s

theorem exec_add_eq (d a b : XReg) (s : State) :
    exec (.add d a b) s = .next (s.storeInt d (val (s.getX a) + val (s.getX b))) := by
  have hcommit := commit_eq_storeInt (addOverflows_rawAdd_iff (s.getX a) (s.getX b)) d s
  rwa [← rawAdd_eq_enc256] at hcommit

theorem exec_sub_eq (d a b : XReg) (s : State) :
    exec (.sub d a b) s = .next (s.storeInt d (val (s.getX a) - val (s.getX b))) := by
  have hcommit := commit_eq_storeInt (subOverflows_rawSub_iff (s.getX a) (s.getX b)) d s
  rwa [← rawSub_eq_enc256] at hcommit

/-! ## The rules of the commands (R171 to R173) -/

/-- Settles O42: the complement-and-carry loop is the negation, which fits except for the most negative value. -/
theorem negRule : Obligations.NegRule := by
  intro d a s
  refine ⟨toNat_commandWord 0x30 d.index a.index 0, fun hval => ?_, fun hval => ?_⟩
  · have hin := (inRange_neg_val_iff _).mpr hval
    exact ⟨val_enc256 hin, by rw [exec_neg_eq, s.storeInt_of_inRange d hin]⟩
  · have hout := mt (inRange_neg_val_iff (s.getX a)).mp (not_not.mpr hval)
    rw [exec_neg_eq, s.storeInt_of_not_inRange d hout]

/-- Settles O43: the carry loop is the sum mod 2^256, and the sign test is the range test. -/
theorem addRule : Obligations.AddRule := fun d a b s =>
  ⟨toNat_commandWord 0x31 d.index a.index b.index, rawAdd_eq_enc256 _ _, not_inRange_add_iff _ _,
    fun hin => by rw [exec_add_eq, s.storeInt_of_inRange d hin],
    fun hout => by rw [exec_add_eq, s.storeInt_of_not_inRange d hout]⟩

/-- Settles O44: the borrow loop is the difference mod 2^256, and the sign test is the range test. -/
theorem subRule : Obligations.SubRule := fun d a b s =>
  ⟨toNat_commandWord 0x32 d.index a.index b.index, rawSub_eq_enc256 _ _, not_inRange_sub_iff _ _,
    fun hin => by rw [exec_sub_eq, s.storeInt_of_inRange d hin],
    fun hout => by rw [exec_sub_eq, s.storeInt_of_not_inRange d hout]⟩

/-! ## The identities (R174) -/

theorem inRange_maxV : InRange Config.maxV := by decide

theorem inRange_minV : InRange Config.minV := by decide

/-- A result at an end of the range is stored, and one a unit beyond it overflows. -/
theorem State.storeInt_at_ends (s : State) (d : XReg) (n : Int) :
    (n = Config.maxV ∨ n = Config.minV →
      (s.storeInt d n).status.err = 0 ∧ val ((s.storeInt d n).getX d) = n) ∧
    (n = Config.maxV + 1 ∨ n = Config.minV - 1 → (s.storeInt d n).status.err = 5) := by
  refine ⟨fun hend => ?_, fun hbeyond => err_storeInt_eq_five_iff.mpr fun ⟨hlow, hhigh⟩ => by omega⟩
  have hin : InRange n := by
    obtain rfl | rfl := hend
    · exact inRange_maxV
    · exact inRange_minV
  exact ⟨err_storeInt_eq_zero_iff.mpr hin, by rw [s.getX_storeInt_self d hin, val_enc256 hin]⟩

/-- ADD of a Register and the negation another one was given is the subtraction. -/
theorem exec_add_of_negated (d : XReg) {a n : XReg} (h : n ≠ a) (s : State) {k : Int} (hk : InRange (-k)) :
    exec (.add d a n) (s.storeInt n (-k)) = .next ((s.storeInt n (-k)).storeInt d (val (s.getX a) - k)) := by
  rw [exec_add_eq, s.getX_storeInt_of_ne _ h.symm, s.getX_storeInt_self n hk, val_enc256 hk, sub_eq_add_neg]

/-- Settles O45: each command stores its exact result, so the identities are those of the integers and of the range. -/
theorem arithmeticIdentities : Obligations.ArithmeticIdentities := by
  refine ⟨fun d a n s t hna hneg ht => ?_, fun d a b n s t u v hna hsub ht hneg hadd hu hv => ?_,
    fun d a b n s ha hb => ?_, fun d a s => ?_, fun d a b s k hk => ?_, fun d a b s k hk => ?_⟩
  · obtain rfl := Host.Outcome.next.inj ((exec_neg_eq n a s).symm.trans hneg)
    have hzero : InRange 0 := by decide
    refine ⟨_, exec_add_of_negated d hna s (State.err_storeInt_eq_zero_iff.mp ht), ?_⟩
    rw [sub_self]
    exact ⟨State.err_storeInt_eq_zero_iff.mpr hzero, State.getX_storeInt_self _ d hzero⟩
  · obtain rfl := Host.Outcome.next.inj ((exec_sub_eq d a b s).symm.trans hsub)
    obtain rfl := Host.Outcome.next.inj ((exec_neg_eq n b s).symm.trans hneg)
    rw [exec_add_of_negated d hna s (State.err_storeInt_eq_zero_iff.mp hu)] at hadd
    obtain rfl := Host.Outcome.next.inj hadd
    have hin := State.err_storeInt_eq_zero_iff.mp ht
    rw [State.getX_storeInt_self _ d hin, State.getX_storeInt_self _ d hin]
  · have hdiff : val (s.getX a) - val (s.getX b) = Config.maxV := by rw [ha, hb]; decide
    have hneg : ¬ InRange (-val (s.getX b)) := by rw [hb]; decide
    obtain ⟨herr, hval⟩ := (s.storeInt_at_ends d Config.maxV).1 (.inl rfl)
    exact ⟨_, _, hdiff ▸ exec_sub_eq d a b s, herr, hval, exec_neg_eq n b s, State.err_storeInt_eq_five_iff.mpr hneg⟩
  · refine ⟨_, exec_neg_eq d a s, ?_⟩
    rw [State.err_storeInt_eq_five_iff, inRange_neg_val_iff, not_not]
    rfl
  · exact ⟨_, hk ▸ exec_add_eq d a b s, s.storeInt_at_ends d k⟩
  · exact ⟨_, hk ▸ exec_sub_eq d a b s, s.storeInt_at_ends d k⟩

end Sys2Proof.Machine

namespace Sys2Proof.Machine

/-! ## The magnitude (44_scalar.md R190) -/

/-- Settles O46: the magnitude is the absolute value, and bit 255 is the sign it is taken by. -/
theorem magIsAbsoluteValue : Obligations.MagIsAbsoluteValue := fun x =>
  ⟨mag_eq_natAbs_val x, mag_le x, by rw [mag, sign, BitVec.msb_eq_getLsbD_last]⟩

/-- The words of a magnitude lose nothing of it. -/
theorem wordsToNat_magWords (x : Reg) : wordsToNat (magWords x) = mag x := by
  rw [magWords, wordsToNat_words, BitVec.toNat_ofNat]
  exact Nat.mod_eq_of_lt ((mag_le x).trans_lt (by decide))

theorem length_magWords (x : Reg) : (magWords x).length = 8 := length_words _

/-- A Register's integer is its magnitude under its sign. -/
theorem signedValue_mag (x : Reg) : signedValue (sign x) (mag x) = val x := by
  rw [sign_eq_decide, mag_eq_natAbs_val, signedValue_natAbs]

theorem withSign_eq_enc256 (negative : Bool) (p : Nat) : withSign negative p = enc256 (signedValue negative p) := by
  cases negative <;> rfl

/-! ## MULS (R191) -/

/-- The word loop gives the exact product of the magnitude and the scalar. -/
theorem magProduct_eq (x : Reg) (m : Word) : magProduct x m = mag x * m.toNat := by
  obtain ⟨-, hloop⟩ := mulWords_spec m.toNat (magWords x) 0
  rwa [length_magWords, wordsToNat_magWords, add_zero] at hloop

theorem signedValue_mul (negative : Bool) (p m : Nat) :
    signedValue negative (p * m) = signedValue negative p * m := by
  cases negative <;> simp [signedValue]

/-- The product's magnitude under the Register's sign is the exact product. -/
theorem signedValue_magProduct (x : Reg) (m : Word) :
    signedValue (sign x) (magProduct x m) = val x * m.toNat := by
  rw [magProduct_eq, signedValue_mul, signedValue_mag]

/-- The overflow test on the magnitude is the range test on the signed product. -/
theorem mulOverflows_iff (negative : Bool) (p : Nat) :
    mulOverflows negative p = true ↔ ¬ InRange (signedValue negative p) := by
  rw [inRange_iff]
  cases negative
  · simp only [mulOverflows, signedValue, Bool.false_eq_true, if_false, decide_eq_true_eq]
    omega
  · simp only [mulOverflows, signedValue, if_true, decide_eq_true_eq]
    omega

theorem exec_muls_eq (d a : XReg) (s : State) :
    exec (.muls d a) s = .next (s.storeInt d (val (s.getX a) * s.scalar.toNat)) := by
  have hcommit := commit_eq_storeInt (mulOverflows_iff (sign (s.getX a)) (magProduct (s.getX a) s.scalar)) d s
  rwa [← withSign_eq_enc256, signedValue_magProduct] at hcommit

/-- Settles O47: the carry loop is the exact product, stored where the range test admits it. -/
theorem mulsRule : Obligations.MulsRule := fun d a s =>
  ⟨toNat_commandWord 0x40 d.index a.index 0, magProduct_eq _ _,
    fun hin => by rw [exec_muls_eq, s.storeInt_of_inRange d hin],
    fun hout => by rw [exec_muls_eq, s.storeInt_of_not_inRange d hout]⟩

/-! ## Division truncated toward zero -/

/-- The quotient of the magnitudes under the dividend's sign is the quotient truncated toward zero. -/
theorem signedValue_div (negative : Bool) (p m : Nat) :
    signedValue negative (p / m) = (signedValue negative p).tdiv m := by
  cases negative <;> simp [signedValue, Int.neg_tdiv]

theorem tdiv_eq_sign_mul (v : Int) (m : Nat) : v.tdiv m = v.sign * (v.natAbs / m : Nat) := by
  obtain rfl | ⟨neg, p, hp, rfl⟩ := eq_zero_or_signedValue v
  · simp
  · have hsign : (p : Int).sign = 1 := Int.sign_eq_one_of_pos (by omega)
    rw [← signedValue_div]
    cases neg <;> simp [signedValue, hsign]

theorem tdiv_mul_add_of_nonneg {v : Int} (hv : 0 ≤ v) (m : Nat) : v = v.tdiv m * m + (v.natAbs % m : Nat) := by
  obtain ⟨p, rfl⟩ := Int.eq_ofNat_of_zero_le hv
  rw [Int.tdiv_eq_ediv_of_nonneg hv]
  exact_mod_cast (Nat.div_add_mod' p m).symm

theorem tdiv_mul_sub_of_neg {v : Int} (hv : v < 0) (m : Nat) : v = v.tdiv m * m - (v.natAbs % m : Nat) := by
  have hneg := tdiv_mul_add_of_nonneg (v := -v) (by omega) m
  rw [Int.neg_tdiv, Int.natAbs_neg] at hneg
  linarith

/-- A quotient of a number in range is in range. -/
theorem inRange_tdiv {v : Int} (hv : InRange v) (m : Nat) : InRange (v.tdiv m) := by
  rw [← signedValue_natAbs v] at hv ⊢
  rw [← signedValue_div]
  exact inRange_signedValue_of_le (Nat.div_le_self _ _) hv

/-! ## DIVS (R192) -/

/-- The long division gives the quotient and the remainder of the magnitude. -/
theorem magDivMod_eq (x : Reg) {m : Word} (hm : 0 < m.toNat) :
    magDivMod x m = (mag x / m.toNat, mag x % m.toNat) := by
  obtain ⟨-, hrem, hloop⟩ := divWords_spec hm (magWords x).reverse 0 hm
  rw [List.reverse_reverse, wordsToNat_magWords, zero_mul, zero_add] at hloop
  rw [add_comm, mul_comm] at hloop
  obtain ⟨hquotient, hremainder⟩ := (Nat.div_mod_unique hm).mpr ⟨hloop, hrem⟩
  rw [hquotient, hremainder]
  rfl

/-- The quotient put back under the Register's sign is the one truncated toward zero. -/
theorem withSign_magDivMod (x : Reg) {m : Word} (hm : 0 < m.toNat) :
    withSign (sign x) (magDivMod x m).1 = enc256 ((val x).tdiv m.toNat) := by
  rw [magDivMod_eq x hm, withSign_eq_enc256, signedValue_div, signedValue_mag]

theorem magDivMod_remainder (x : Reg) {m : Word} (hm : 0 < m.toNat) :
    (magDivMod x m).2 = (val x).natAbs % m.toNat := by
  rw [magDivMod_eq x hm, mag_eq_natAbs_val]

/-- The state after a division of `v` by the scalar into `X[d]` and REM, or DivisionByZero. -/
def State.storeQuotient (s : State) (d : XReg) (v : Int) : State :=
  if s.scalar.toNat = 0 then s.raised 4
  else
    { s with
      x := s.x.set d (enc256 (v.tdiv s.scalar.toNat))
      rem := BitVec.ofNat 32 (v.natAbs % s.scalar.toNat)
      status := s.status.done }

theorem State.storeQuotient_of_zero {s : State} (d : XReg) (v : Int) (h : s.scalar.toNat = 0) :
    s.storeQuotient d v = s.raised 4 := if_pos h

theorem State.storeQuotient_of_pos {s : State} (d : XReg) (v : Int) (h : 0 < s.scalar.toNat) :
    s.storeQuotient d v =
      { s with
        x := s.x.set d (enc256 (v.tdiv s.scalar.toNat))
        rem := BitVec.ofNat 32 (v.natAbs % s.scalar.toNat)
        status := s.status.done } := if_neg h.ne'

theorem State.getX_storeQuotient {s : State} (d : XReg) (v : Int) (h : 0 < s.scalar.toNat) :
    (s.storeQuotient d v).getX d = enc256 (v.tdiv s.scalar.toNat) := by
  rw [storeQuotient_of_pos d v h]
  exact XRegs.get_set_self _ _ _

theorem State.rem_storeQuotient {s : State} (d : XReg) (v : Int) (h : 0 < s.scalar.toNat) :
    (s.storeQuotient d v).rem = BitVec.ofNat 32 (v.natAbs % s.scalar.toNat) := by
  rw [storeQuotient_of_pos d v h]

theorem exec_divs_eq (d a : XReg) (s : State) :
    exec (.divs d a) s = .next (s.storeQuotient d (val (s.getX a))) := by
  rw [exec, execDivs]
  rcases Nat.eq_zero_or_pos s.scalar.toNat with hzero | hpos
  · have hscalar : s.scalar = 0 := BitVec.eq_of_toNat_eq hzero
    rw [if_pos hscalar, commit_error, State.fail_eq_raised, State.storeQuotient_of_zero d _ hzero, Err.code]
  · have hscalar : s.scalar ≠ 0 := by
      intro heq
      rw [heq] at hpos
      exact absurd hpos (by decide)
    rw [if_neg hscalar, State.storeQuotient_of_pos d _ hpos]
    dsimp only
    rw [withSign_magDivMod _ hpos, magDivMod_remainder _ hpos]
    rfl

/-- Settles O48: the long division is the exact one, and its quotient is no larger than the dividend. -/
theorem divsRule : Obligations.DivsRule := fun d a s =>
  ⟨toNat_commandWord 0x41 d.index a.index 0,
    fun hzero => by rw [exec_divs_eq, State.storeQuotient_of_zero d _ hzero],
    fun hpos => ⟨inRange_tdiv (inRange_val _) _, Nat.mod_lt _ hpos, tdiv_eq_sign_mul _ _,
      fun hv => tdiv_mul_add_of_nonneg hv _, fun hv => tdiv_mul_sub_of_neg hv _,
      by rw [exec_divs_eq, State.storeQuotient_of_pos d _ hpos]⟩⟩

/-! ## The table of results (R193) -/

theorem State.val_getX_storeInt (s : State) (d : XReg) {n : Int} (h : InRange n) :
    val ((s.storeInt d n).getX d) = n := by
  rw [s.getX_storeInt_self d h, val_enc256 h]

theorem State.val_getX_storeQuotient {s : State} (d : XReg) (x : Reg) (h : 0 < s.scalar.toNat) :
    val ((s.storeQuotient d (val x)).getX d) = (val x).tdiv s.scalar.toNat := by
  rw [getX_storeQuotient d _ h, val_enc256 (inRange_tdiv (inRange_val x) _)]

theorem State.toNat_rem_storeQuotient {s : State} (d : XReg) (v : Int) (h : 0 < s.scalar.toNat) :
    (s.storeQuotient d v).rem.toNat = v.natAbs % s.scalar.toNat := by
  rw [rem_storeQuotient d v h, BitVec.toNat_ofNat]
  exact Nat.mod_eq_of_lt ((Nat.mod_lt _ h).trans s.scalar.isLt)

/-- A result that cannot be below the range overflows above it only. -/
theorem State.storeInt_of_nonneg (s : State) (d : XReg) {n : Int} (h : 0 ≤ n) :
    if 2 ^ 255 - 1 < n then (s.storeInt d n).status.err = 5 else val ((s.storeInt d n).getX d) = n := by
  split
  · next hbig => exact err_storeInt_eq_five_iff.mpr fun hin => by rw [inRange_iff] at hin; omega
  · next hfits => exact s.val_getX_storeInt d ((inRange_iff n).mpr (by omega))

/-- A result that cannot be above the range overflows below it only. -/
theorem State.storeInt_of_nonpos (s : State) (d : XReg) {n : Int} (h : n ≤ 0) :
    if n < -(2 ^ 255) then (s.storeInt d n).status.err = 5 else val ((s.storeInt d n).getX d) = n := by
  split
  · next hsmall => exact err_storeInt_eq_five_iff.mpr fun hin => by rw [inRange_iff] at hin; omega
  · next hfits => exact s.val_getX_storeInt d ((inRange_iff n).mpr (by omega))

/-- Division of a non-negative Register: the floor quotient and its remainder. -/
theorem State.storeQuotient_of_nonneg {s : State} (d : XReg) {x : Reg} (hm : 0 < s.scalar.toNat) (hx : 0 ≤ val x) :
    val ((s.storeQuotient d (val x)).getX d) = val x / s.scalar.toNat ∧
      ((s.storeQuotient d (val x)).rem.toNat : Int) = val x % s.scalar.toNat := by
  rw [val_getX_storeQuotient d x hm, toNat_rem_storeQuotient d _ hm]
  exact ⟨Int.tdiv_eq_ediv_of_nonneg hx, by rw [Int.natCast_emod, Int.natAbs_of_nonneg hx]⟩

/-- Division of a negative Register: the floor quotient of its magnitude, negated, and the remainder of the magnitude. -/
theorem State.storeQuotient_of_neg {s : State} (d : XReg) {x : Reg} (hm : 0 < s.scalar.toNat) (hx : val x < 0) :
    val ((s.storeQuotient d (val x)).getX d) = -(-val x / s.scalar.toNat) ∧
      ((s.storeQuotient d (val x)).rem.toNat : Int) = -val x % s.scalar.toNat := by
  have hneg : 0 ≤ -val x := by omega
  rw [val_getX_storeQuotient d x hm, toNat_rem_storeQuotient d _ hm, ← Int.tdiv_eq_ediv_of_nonneg hneg, Int.neg_tdiv,
    neg_neg, Int.natCast_emod, ← Int.natAbs_neg, Int.natAbs_of_nonneg hneg]
  exact ⟨rfl, rfl⟩

/-- A row of values for DIVS: what a known dividend and scalar leave in `X[d]` and REM. -/
theorem State.storeQuotient_row {s : State} (d : XReg) {v : Int} {m : Nat} (hm : s.scalar.toNat = m) (hpos : 0 < m) :
    (s.storeQuotient d v).getX d = enc256 (v.tdiv m) ∧ (s.storeQuotient d v).rem = BitVec.ofNat 32 (v.natAbs % m) := by
  subst hm
  exact ⟨getX_storeQuotient d v hpos, rem_storeQuotient d v hpos⟩

/-- A row of values for MULS and DIVS whose product fits. -/
theorem State.storeInt_storeQuotient_row {s : State} (d : XReg) {v : Int} {m : Nat} (hm : s.scalar.toNat = m)
    (hpos : 0 < m) (hv : InRange v) (hproduct : InRange (v * m)) :
    val ((s.storeInt d (v * m)).getX d) = v * m ∧ val ((s.storeQuotient d v).getX d) = v.tdiv m ∧
      (s.storeQuotient d v).rem = BitVec.ofNat 32 (v.natAbs % m) := by
  obtain ⟨hquotient, hrem⟩ := storeQuotient_row d (v := v) hm hpos
  rw [hquotient, val_enc256 (inRange_tdiv hv m)]
  exact ⟨s.val_getX_storeInt d hproduct, rfl, hrem⟩

/-- Settles O49: every row is the stored product, or Overflow, beside the stored quotient and remainder. -/
theorem scalarResultTable : Obligations.ScalarResultTable := by
  intro d a s
  refine ⟨_, _, exec_muls_eq d a s, exec_divs_eq d a s, fun hm => ?scalarZero, fun hm hv => ?registerZero,
    fun hm hv => ?positive, fun hm hv => ?negative, fun hv hm => ?seven, fun hv hm => ?minusSeven,
    fun hv hm => ?minByOne, fun hv hm => ?minByThree, fun hv hm => ?maxByMax⟩
  case scalarZero =>
    have hin : InRange 0 := by decide
    rw [hm, Nat.cast_zero, mul_zero, State.storeQuotient_of_zero d _ hm]
    exact ⟨s.val_getX_storeInt d hin, State.err_storeInt_eq_zero_iff.mpr hin, rfl, rfl, rfl⟩
  case registerZero =>
    have hin : InRange 0 := by decide
    obtain ⟨hquotient, -⟩ := State.storeQuotient_of_nonneg d hm hv.ge
    have hrem := State.rem_storeQuotient d (val (s.getX a)) hm
    rw [hv] at hquotient hrem ⊢
    rw [zero_mul]
    exact ⟨s.val_getX_storeInt d hin, by simpa using hquotient, by simpa using hrem⟩
  case positive => exact ⟨s.storeInt_of_nonneg d (by positivity), State.storeQuotient_of_nonneg d hm hv.le⟩
  case negative =>
    have hproduct := mul_nonpos_of_nonpos_of_nonneg hv.le (Nat.cast_nonneg s.scalar.toNat)
    exact ⟨s.storeInt_of_nonpos d hproduct, State.storeQuotient_of_neg d hm hv⟩
  case seven | minusSeven | minByOne =>
    rw [hv, hm]
    exact State.storeInt_storeQuotient_row d hm (by decide) (by decide) (by decide)
  case minByThree | maxByMax =>
    rw [hv, hm]
    obtain ⟨hquotient, hrem⟩ := State.storeQuotient_row d hm (by decide)
    exact ⟨State.err_storeInt_eq_five_iff.mpr (by decide), hquotient.trans (by decide), hrem⟩

end Sys2Proof.Machine

namespace Sys2Proof.Machine

/-! ## The ends of a command word (60_exceptions.md R212, R214, R215) -/

/-- A command word ends in an error taken on the state before, or in a state whose ERR is 0. -/
theorem runCommand_cases {w : Word} {s t : State} (h : runCommand w s = .next t) :
    (∃ e, t = s.fail e) ∨ t.status.err = 0 := by
  cases hw : decode w with
  | error e =>
    rw [runCommand_illegal hw] at h
    cases h
    exact .inl ⟨_, rfl⟩
  | ok i =>
    rw [runCommand_ok hw] at h
    rcases exec_cases h with ⟨e, -, rfl⟩ | ⟨u, -, rfl⟩
    · exact .inl ⟨e, rfl⟩
    · exact .inr rfl

/-- Settles O12: an ending that is no success is an error taken on the state before. -/
theorem errorChangesOnlyErrAndV : Obligations.ErrorChangesOnlyErrAndV := by
  intro s t w h herr
  rcases runCommand_cases h with ⟨e, rfl⟩ | hzero
  · obtain ⟨-, hcode, -⟩ := e.code_spec
    exact ⟨s.fail_eq_raised e, hcode⟩
  · exact absurd hzero herr

/-- Every command's row has the code of success. -/
theorem zero_mem_codesOf (i : Instr) : 0 ∈ codesOf i := by cases i <;> exact List.mem_cons_self

/-- Settles O13, by the two ends of a command: the error is of its row, and so is the success. -/
theorem commandsRaiseOnlyTheirErrors : Obligations.CommandsRaiseOnlyTheirErrors := by
  refine fun s => ⟨fun i => ?_, fun w e hw => ⟨_, runCommand_illegal hw s, rfl⟩⟩
  obtain ⟨t, ht⟩ := exec_next i s
  refine ⟨t, ht, ?_⟩
  rcases exec_cases ht with ⟨e, he, rfl⟩ | ⟨u, -, rfl⟩
  · exact he
  · exact zero_mem_codesOf i

/-! ## ERR and V are not sticky (60_exceptions.md R217, R218) -/

/-- The state with other values in ERR and V. -/
def State.withErrV (s : State) (err : BitVec 3) (v : Bool) : State :=
  { s with status := { s.status with err := err, v := v } }

section
variable (s : State) (err : BitVec 3) (v : Bool)

@[simp] theorem State.getX_withErrV (r : XReg) : (s.withErrV err v).getX r = s.getX r := rfl

@[simp] theorem State.scalar_withErrV : (s.withErrV err v).scalar = s.scalar := rfl

@[simp] theorem State.tinText_withErrV : (s.withErrV err v).tinText = s.tinText := rfl

@[simp] theorem readEnc_withErrV (b : EBuf) : readEnc (s.withErrV err v) b = readEnc s b := rfl

@[simp] theorem readPair_withErrV (a b : EBuf) : readPair (s.withErrV err v) a b = readPair s a b := rfl

/-- Both ends of a command write ERR and V: what stood there before is lost, if the command's result only carries it along. -/
theorem commit_withErrV {r r' : Except Err State} (h : r' = r.map (·.withErrV err v)) :
    commit (s.withErrV err v) r' = commit s r := by
  subst h
  cases r <;> rfl

theorem comparePredicate_withErrV (truth : Ordering → Bool) (a b : EBuf) :
    comparePredicate truth a b (s.withErrV err v) = comparePredicate truth a b s := by
  refine commit_withErrV s err v ?_
  rw [readPair_withErrV]
  cases readPair s a b <;> rfl

theorem compareSelect_withErrV (pickB : Ordering) (d a b : EBuf) :
    compareSelect pickB d a b (s.withErrV err v) = compareSelect pickB d a b s := by
  refine commit_withErrV s err v ?_
  rw [readPair_withErrV]
  cases readPair s a b <;> rfl

/-- An error or a written state, as a test on the operands decides. -/
theorem ite_withErrV (c : Prop) [Decidable c] (e : Err) (u : State) :
    (if c then .error e else .ok (u.withErrV err v)) =
      (if c then .error e else .ok u : Except Err State).map (·.withErrV err v) := by
  split <;> rfl

/-- No command's operands or results depend on ERR and V. -/
theorem exec_withErrV (i : Instr) : exec i (s.withErrV err v) = exec i s := by
  cases i with
  | dec d a =>
    refine commit_withErrV s err v ?_
    rw [readEnc_withErrV]
    cases readEnc s a <;> rfl
  | decw d a =>
    refine commit_withErrV s err v ?_
    rw [readEnc_withErrV]
    cases readEnc s a with
    | error e => rfl
    | ok bs =>
      dsimp only
      split <;> rfl
  | parse d =>
    refine commit_withErrV s err v ?_
    rw [State.tinText_withErrV]
    cases parseText s.tinText <;> rfl
  | cmp a b =>
    refine commit_withErrV s err v ?_
    rw [readPair_withErrV]
    cases readPair s a b <;> rfl
  | enc d a | fmt a => rfl
  | ceq a b | cne a b | clt a b | cle a b | cgt a b | cge a b => exact comparePredicate_withErrV s err v _ a b
  | min d a b | max d a b => exact compareSelect_withErrV s err v _ d a b
  | neg d a =>
    refine commit_withErrV s err v ?_
    rw [State.getX_withErrV]
    exact ite_withErrV err v _ _ (s.setX d _)
  | add d a b | sub d a b =>
    refine commit_withErrV s err v ?_
    rw [State.getX_withErrV, State.getX_withErrV]
    exact ite_withErrV err v _ _ (s.setX d _)
  | muls d a =>
    refine commit_withErrV s err v ?_
    rw [State.getX_withErrV, State.scalar_withErrV]
    exact ite_withErrV err v _ _ (s.setX d _)
  | divs d a =>
    refine commit_withErrV s err v ?_
    rw [State.getX_withErrV, State.scalar_withErrV]
    exact ite_withErrV err v _ _ ((s.setX d _).setRem _)

end

/-- Settles O10, by the operands, which ERR and V are none of, and by the two ends of a command, which write both. -/
theorem errorsAreNotSticky : Obligations.ErrorsAreNotSticky := fun i s err v => exec_withErrV s err v i

/-! ## The idle step (60_exceptions.md R226, 10_state.md R40) -/

theorem step_of_port_nil {s : State} (h : s.port = []) : step s = .next s := by
  rw [step, nextEvent, h]

/-- Settles O9. -/
theorem idleHoldsState : Obligations.IdleHoldsState := fun _ => step_of_port_nil

end Sys2Proof.Machine

namespace Sys2Proof.Machine

/-! ## A reset event leaves the reset state (70_reset_and_hazards.md R240) -/

/-- Settles O16, by what a step on either reset event answers: between two transactions or during one. -/
theorem resetLeavesResetState : Obligations.ResetLeavesResetState := by
  rintro s rest (hport | ⟨x, hport⟩)
  · exact step_reset (x := .rst) (.inl rfl) hport
  · exact step_reset (.inr rfl) hport

/-! ## The operands a command finds after reset (10_state.md R42) -/

@[simp] theorem val_getX_reset (r : XReg) : val (State.reset.getX r) = 0 := by
  rw [getX_reset]
  decide

theorem len_getE_reset_le (b : EBuf) : (State.reset.getE b).len.toNat ≤ 32 := by
  rw [getE_reset]
  decide

@[simp] theorem contents_getE_reset (b : EBuf) : (State.reset.getE b).contents = [] := by
  rw [getE_reset]
  rfl

@[simp] theorem tinText_reset : State.reset.tinText = [] := rfl

theorem inRange_zero : InRange 0 := by decide

/-! ## What the commands make of them (70_reset_and_hazards.md R242) -/

/-- A command's outcome is a next state with `err` in ERR. -/
def EndsWithErr (o : Host.Outcome State Fault Refusal) (err : BitVec 3) : Prop :=
  ∃ t, o = .next t ∧ t.status.err = err

/-- The empty encoding decodes, and passes the wire check. -/
theorem dec_decw_reset (d : XReg) (a : EBuf) :
    EndsWithErr (exec (.dec d a) State.reset) 0 ∧ EndsWithErr (exec (.decw d a) State.reset) 0 := by
  have hlen := len_getE_reset_le a
  have hwire : wireCheckPasses (State.reset.getE a).contents = true := by
    rw [contents_getE_reset]
    rfl
  have hdec : EndsWithErr (exec (.dec d a) State.reset) 0 := ⟨_, exec_dec_of_le d hlen, rfl⟩
  exact ⟨hdec, exec_decw_eq_exec_dec d hlen hwire ▸ hdec⟩

/-- The empty text is no number. -/
theorem parse_reset (d : XReg) : EndsWithErr (exec (.parse d) State.reset) 1 := by
  have herror : parseText State.reset.tinText = .error .invalidSyntax := by
    rw [tinText_reset]
    rfl
  exact ⟨_, exec_parse_of_error d herror, rfl⟩

/-- Two empty encodings compare Equal. -/
theorem exec_cmp_reset (a b : EBuf) : exec (.cmp a b) State.reset = .next (State.reset.setCR .eq).succeed := by
  rw [exec_cmp_of_le (len_getE_reset_le a) (len_getE_reset_le b), contents_getE_reset, contents_getE_reset, cmpEnc_nil]

theorem comparePredicate_reset (p : Ordering → Bool) (a b : EBuf) :
    EndsWithErr (comparePredicate p a b State.reset) 0 := by
  rw [comparePredicate, readPair_of_le (len_getE_reset_le a) (len_getE_reset_le b), commit_ok]
  exact ⟨_, rfl, rfl⟩

theorem compareSelect_reset (pickB : Ordering) (d a b : EBuf) :
    EndsWithErr (compareSelect pickB d a b State.reset) 0 :=
  ⟨_, compareSelect_of_le pickB d (len_getE_reset_le a) (len_getE_reset_le b), rfl⟩

/-- NEG, ADD, SUB and MULS have the exact result 0. -/
theorem exec_arith_reset (d a b : XReg) {i : Instr} (hi : i ∈ [.neg d a, .add d a b, .sub d a b, .muls d a]) :
    exec i State.reset = .next (State.reset.storeInt d 0) := by
  simp only [List.mem_cons, List.not_mem_nil, or_false] at hi
  rcases hi with rfl | rfl | rfl | rfl
  · rw [exec_neg_eq, val_getX_reset, neg_zero]
  · rw [exec_add_eq, val_getX_reset, val_getX_reset, add_zero]
  · rw [exec_sub_eq, val_getX_reset, val_getX_reset, sub_zero]
  · rw [exec_muls_eq, val_getX_reset, zero_mul]

theorem arith_reset (d a b : XReg) {i : Instr} (hi : i ∈ [.neg d a, .add d a b, .sub d a b, .muls d a]) :
    EndsWithErr (exec i State.reset) 0 :=
  ⟨_, exec_arith_reset d a b hi, State.err_storeInt_eq_zero_iff.mpr inRange_zero⟩

/-- S is 0 after reset. -/
theorem divs_reset (d a : XReg) : EndsWithErr (exec (.divs d a) State.reset) 4 :=
  ⟨_, (exec_divs_eq d a _).trans (congrArg _ (State.storeQuotient_of_zero d _ rfl)), rfl⟩

/-- Settles O17: the Registers are 0, the buffers and the text empty and the scalar 0, and each command's rule says what
it makes of such operands. -/
theorem resetStateIsLegalOperand : Obligations.ResetStateIsLegalOperand := by
  refine ⟨fun i => ?_, fun d a b => ?_, fun a b => ⟨_, exec_cmp_reset a b, rfl⟩⟩
  · cases i with
    | dec d a => exact (dec_decw_reset d a).1
    | decw d a => exact (dec_decw_reset d a).2
    | enc d a => exact ⟨_, exec_enc d a _, rfl⟩
    | parse d => exact parse_reset d
    | fmt a => exact ⟨_, exec_fmt_eq a _, rfl⟩
    | cmp a b => exact ⟨_, exec_cmp_reset a b, rfl⟩
    | ceq a b | cne a b | clt a b | cle a b | cgt a b | cge a b => exact comparePredicate_reset _ a b
    | min d a b | max d a b => exact compareSelect_reset _ d a b
    | neg d a | muls d a => exact arith_reset d a a (by simp)
    | add d a b | sub d a b => exact arith_reset d a b (by simp)
    | divs d a => exact divs_reset d a
  · refine ⟨_, exec_arith_reset d a b (by simp), ?_⟩
    rw [State.getX_storeInt_self _ d inRange_zero]
    rfl

end Sys2Proof.Machine
